-- ==== Sys2Proof/Word.lean ====
section
/-! DEFINITION. The bit-vector types of the CSC420 block: bytes of memory, 32-bit registers, and the
field widths the register map names (00_scope.md R5, 10_state.md R26, R35). -/

namespace Sys2Proof

/-- A byte of system memory (10_state.md R43). -/
abbrev Byte := BitVec 8

/-- A register of the window, and a base or stride operand (00_scope.md R5, `REG_WIDTH`). -/
abbrev Word := BitVec 32

/-- A picture dimension field of DIM (00_scope.md R5, `DIM_BITS`). -/
abbrev Half := BitVec 16

/-- A command opcode, and STATUS.LAST_OP (00_scope.md R5, `OP_BITS`; 10_state.md R33). -/
abbrev Nibble := BitVec 4

end Sys2Proof
end

