-- ==== Sys2Proof/Config.lean ====
section
/-! DEFINITION. What is fixed for a machine: the decided parameters of 00_scope.md R5, the platform's OPEN
parameters as plain data, and the free values (no body: nothing can be proved of them). -/

namespace Sys2Proof

/-- `2 ^ ADDR_WIDTH`: system-memory byte addresses run from 0 to this number less one (R5, 20_memory.md R60). -/
abbrev Config.addrLimit : Nat := 4294967296

/-- `REG_WINDOW`, the size of the register window in bytes (R5). -/
abbrev Config.regWindow : Nat := 0x100

/-- The direction of a memory access (20_memory.md R61). -/
inductive Dir where
  | read
  | write
  deriving DecidableEq, Repr

/-- The addresses `first` to `last`, both included. -/
structure Region where
  first : Nat
  last : Nat
  deriving DecidableEq, Repr, Inhabited

/-- The platform's parameters, OPEN in R5 and constant over a run (20_memory.md R61, 70_reset_and_hazards.md
R221). Lists of regions, so that any predicate over the finite address space is some value of this type.
DESIGN CHOICE log 7, safe: statements quantify over every platform. -/
structure Platform where
  /-- Where `BusOK(a, read)` is false (20_memory.md R61). -/
  readErrors : List Region
  /-- Where `BusOK(a, write)` is false (20_memory.md R61). -/
  writeErrors : List Region
  /-- Addresses that are not ordinary memory: read side effects, device registers (20_memory.md R71, U8). -/
  devices : List Region
  /-- `REG_BASE`, where the register window appears in the host's view of system memory; `none` where it does
  not appear there (20_memory.md R60, R80). -/
  regBase : Option Nat
  /-- `HOST_COHERENT` (20_memory.md R77). -/
  hostCoherent : Bool
  deriving DecidableEq, Repr, Inhabited

/-- The platform a machine is built into (R5). Without a body: State.reset knows nothing of it. -/
opaque Config.platform : Platform

/-- FREE VALUE (log 4). The byte that draw number `n` gives for address `a`, wherever the spec says *any
value* (93_implementation_defined.md U1 to U5, U14). -/
opaque Config.anyByte (n a : Nat) : BitVec 8

/-- FREE VALUE (log 5). What system memory holds at `a` before anything has written it: "the platform's and
unspecified" (70_reset_and_hazards.md R212, U21). -/
opaque Config.powerUpByte (a : Nat) : BitVec 8

end Sys2Proof
end

