-- ==== Sys2Proof/Syntax.lean ====
section
/-! DEFINITION. The commands of the block: the four rows of spec/opcode_table.json (30_encoding.md R91). -/

namespace Sys2Proof

/-- A command. A command word has no operand field (30_encoding.md R90): every operand is a configuration
register, latched at acceptance (30_encoding.md R94, R95), so no constructor has an argument. -/
inductive Instr where
  /-- Completes and does nothing else (43_control.md R175). -/
  | nop
  /-- Packed RGBA to planar Y/U/V 4:2:0 (40_csc_forward.md R110). -/
  | cscFwd
  /-- Planar Y/U/V 4:2:0 to packed RGBA (41_csc_inverse.md R130). -/
  | cscInv
  /-- Copy of three strided planes into another stride layout (42_row_resampler.md R150). -/
  | repack
  deriving DecidableEq, Repr

end Sys2Proof
end

