-- ==== Sys2Proof/Machine/State.lean ====
section
/-! DEFINITION. The state of the block and of what stands around it (10_state.md R46), as plain data, and the
state right after reset (70_reset_and_hazards.md R210). -/

namespace Sys2Proof.Machine

/-- The error codes of 60_exceptions.md R180; codes 6 to 15 are never produced (10_state.md R32, U15). -/
inductive ErrCode where
  | none
  | badCmd
  | badDim
  | badStride
  | range
  | bus
  deriving DecidableEq, Repr

/-- The stored fields of STATUS (10_state.md R26). BUSY is no field: it mirrors the phase (R28). -/
structure Status where
  done : Bool
  err : Bool
  cmdLost : Bool
  errCode : ErrCode
  lastOp : Nibble
  deriving DecidableEq, Repr

/-- The twelve base and stride registers (10_state.md R36 to R38). -/
structure Planes where
  rgbaBase : Word
  rgbaStride : Word
  srcYBase : Word
  srcUBase : Word
  srcVBase : Word
  srcYStride : Word
  srcUVStride : Word
  dstYBase : Word
  dstUBase : Word
  dstVBase : Word
  dstYStride : Word
  dstUVStride : Word
  deriving DecidableEq, Repr

/-- The configuration registers (10_state.md R35 to R39). -/
structure ConfigRegs where
  dim : Word
  planes : Planes
  deriving DecidableEq, Repr

/-- The latched command `L` (10_state.md R40): copies taken at acceptance. -/
structure Latched where
  op : Nibble
  width : Half
  height : Half
  planes : Planes
  deriving DecidableEq, Repr

/-- The engine phase (10_state.md R41). -/
inductive Phase where
  | idle
  | busy
  deriving DecidableEq, Repr

/-- The set `FP(base, stride, rows, rowBytes)` of 20_memory.md R62, by its four exact integers. -/
structure Footprint where
  base : Nat
  stride : Nat
  rows : Nat
  rowBytes : Nat
  deriving DecidableEq, Repr

/-- One action of an agent outside the block, or the engine's turn (10_state.md R20, 70_reset_and_hazards.md
R220). Several hosts interleave in one list (60_exceptions.md R193). -/
inductive Input where
  /-- The engine takes its turn now (43_control.md R172, R173). -/
  | engine
  /-- Host read of `size` bytes at an offset of the register window (10_state.md R23). -/
  | regRead (offset : Byte) (size : Nat)
  /-- Host write of `size` bytes at an offset of the register window (10_state.md R23). -/
  | regWrite (offset : Byte) (size : Nat) (value : Word)
  /-- Host read of a byte of system memory; `coherent` says that the path is coherent with the memory master
  port, by the platform or by the duties of 20_memory.md R77. -/
  | memRead (address : Word) (coherent : Bool)
  /-- Host write of a byte of system memory, at the moment of 20_memory.md R73 (1); `coherent` as above. -/
  | memWrite (address : Word) (value : Byte) (coherent : Bool)
  /-- `rst` is asserted (70_reset_and_hazards.md R210, R211). -/
  | rstAssert
  /-- `rst` is released (70_reset_and_hazards.md R213). -/
  | rstRelease
  deriving DecidableEq, Repr

/-- What the last host read returned (70_reset_and_hazards.md R220); log 18. -/
inductive Reply where
  | noRead
  | word (value : Word)
  | byte (value : Byte)
  deriving DecidableEq, Repr

/-- System memory (10_state.md R43) as the list of the bytes something has written, addresses strictly rising.
An unlisted address has no listed value; reading it gives a free value (log 5). -/
abbrev Memory := List Host.Cell

/-- The state record of 10_state.md R46, and the model's own fields at its end. -/
structure State where
  /-- CTRL.IRQ_EN (10_state.md R25). -/
  irqEn : Bool
  /-- STATUS (10_state.md R26). -/
  status : Status
  /-- DIM and the base and stride registers (10_state.md R35 to R38). -/
  regs : ConfigRegs
  /-- Engine phase (10_state.md R41). -/
  phase : Phase
  /-- The latched command (10_state.md R40). -/
  latch : Latched
  /-- Ghost: a host wrote a footprint during the current command (10_state.md R41, 70_reset_and_hazards.md R215). -/
  taint : Bool
  /-- System memory (10_state.md R43). -/
  mem : Memory
  /-- Level of the input `rst` (10_state.md R20, 70_reset_and_hazards.md R210); log 14. -/
  rst : Bool
  /-- The platform's parameters, which no step changes (20_memory.md R61); log 7. -/
  platform : Platform
  /-- Pending inputs, oldest first; log 1. -/
  inputs : List Input
  /-- What the last host read returned; log 18. -/
  reply : Reply
  /-- Ghost: destination footprints of the last started command, while its own outcome is still to be read from
  STATUS (20_memory.md R73 (2), 70_reset_and_hazards.md R217); log 13. -/
  awaited : List Footprint
  /-- Ghost: destination bytes of earlier started commands whose outcome STATUS showed no more before the host
  had observed it (R217); log 13. -/
  unobserved : List Nat
  /-- Number of free draws made (the argument of `Config.anyByte`); log 4. -/
  draws : Nat
  deriving DecidableEq, Repr

/-- Why the machine stops. The block itself has no behaviour that traps or hangs (93_implementation_defined.md,
"Treatments"), so both stand only in states no run reaches (log 15). -/
inductive Fault where
  /-- Raised by completion, and by a reset in Busy, of a latched command with a footprint byte at an address
  system memory does not have (20_memory.md R60). Acceptance lets none through (R69). Safe. -/
  | addressOutOfRange
  /-- Raised by the engine's turn in Busy with a latched opcode that is no command. Acceptance starts none
  (43_control.md R170). Safe. -/
  | busyWithoutCommand
  deriving DecidableEq, Repr

/-- Why a step has no meaning: the spec's treatment `refuse` (93_implementation_defined.md). -/
inductive Refusal where
  /-- A command that has no meaning yet. Safe. -/
  | notModelled (mnemonic : String)
  /-- Raised by a host register access of a size other than 4 or at an offset not a multiple of 4 (10_state.md
  R23, U11), and by a byte access through the window at `REG_BASE` (log 10). Safe. -/
  | hostAccessFault
  /-- Raised by acceptance or completion of a command whose footprint is not ordinary memory (20_memory.md R71,
  U8; log 8). Safe. -/
  | footprintNotOrdinary
  /-- Raised by acceptance or completion of a command whose footprint overlaps the register window
  (20_memory.md R60, U9; log 8). Safe. -/
  | footprintOnRegisterWindow
  /-- Raised by a host memory access to a device, whose behaviour the spec does not give (log 11). Safe. -/
  | hostDeviceAccess
  deriving DecidableEq, Repr

/-- The outcome of a step of this machine. -/
abbrev Out := Host.Outcome State Fault Refusal

/-- STATUS after reset (70_reset_and_hazards.md R210). -/
def Status.reset : Status :=
  { done := false, err := false, cmdLost := false, errCode := .none, lastOp := 0 }

/-- The base and stride registers after reset (70_reset_and_hazards.md R210). -/
def Planes.reset : Planes :=
  { rgbaBase := 0, rgbaStride := 0, srcYBase := 0, srcUBase := 0, srcVBase := 0, srcYStride := 0,
    srcUVStride := 0, dstYBase := 0, dstUBase := 0, dstVBase := 0, dstYStride := 0, dstUVStride := 0 }

/-- The configuration registers after reset (70_reset_and_hazards.md R210). -/
def ConfigRegs.reset : ConfigRegs := { dim := 0, planes := Planes.reset }

/-- The latched command after reset: the spec leaves it unspecified and never observed (R210, U6).
DESIGN CHOICE log 6: all zero. -/
def Latched.reset : Latched := { op := 0, width := 0, height := 0, planes := Planes.reset }

/-- The machine right after reset (70_reset_and_hazards.md R210, R213): `rst` is released and nothing has
written memory. The fields from `rst` on are the model's own (logs 1, 4, 7, 13, 14, 18). -/
def State.reset : State where
  irqEn := false
  status := Status.reset
  regs := ConfigRegs.reset
  phase := .idle
  latch := Latched.reset
  taint := false
  mem := []
  rst := false
  platform := Config.platform
  inputs := []
  reply := .noRead
  awaited := []
  unobserved := []
  draws := 0

end Sys2Proof.Machine
end

