-- ==== Sys2Proof/Machine/Flags.lean ====
section
/-! DEFINITION. CTRL, STATUS and `irq`: the words a read returns, what a write does, and the flags' setting and
clearing (10_state.md R25 to R31, R44; 60_exceptions.md R186). -/

namespace Sys2Proof.Machine

/-- The number of an error code (60_exceptions.md R180). -/
def ErrCode.code : ErrCode → Nibble
  | .none => 0
  | .badCmd => 1
  | .badDim => 2
  | .badStride => 3
  | .range => 4
  | .bus => 5

/-- A flag as a one-bit field. -/
def bit (b : Bool) : BitVec 1 := BitVec.ofBool b

/-- STATUS.BUSY mirrors the phase (10_state.md R28). -/
def State.busy (s : State) : Bool := s.phase == .busy

/-- The word a read of CTRL returns (10_state.md R25). -/
def ctrlWord (s : State) : Word := (0 : BitVec 31) ++ bit s.irqEn

/-- The word a read of STATUS returns: reserved 31:16, LAST_OP, ERRCODE, reserved 7:4, CMD_LOST, ERR, DONE,
BUSY (10_state.md R26). -/
def statusWord (s : State) : Word :=
  (0 : BitVec 16) ++ s.status.lastOp ++ s.status.errCode.code ++ (0 : BitVec 4)
    ++ bit s.status.cmdLost ++ bit s.status.err ++ bit s.status.done ++ bit s.busy

/-- The interrupt output (60_exceptions.md R186). -/
def State.irq (s : State) : Bool := s.irqEn && (s.status.done || s.status.err)

/-- A write of CTRL: only IRQ_EN is stored (10_state.md R25). -/
def writeCtrl (v : Word) (s : State) : State := { s with irqEn := v.getLsbD 0 }

/-- A write of STATUS: write-one-to-clear at bits 1, 2 and 3; clearing ERR zeroes ERRCODE (10_state.md R27). -/
def writeStatus (v : Word) (s : State) : State :=
  { s with status :=
    { done := s.status.done && !v.getLsbD 1
      err := s.status.err && !v.getLsbD 2
      cmdLost := s.status.cmdLost && !v.getLsbD 3
      errCode := if v.getLsbD 2 then .none else s.status.errCode
      lastOp := s.status.lastOp } }

/-- `x[STATUS].DONE <- 1` (10_state.md R29). -/
def setDone (s : State) : State := { s with status := { s.status with done := true } }

/-- `x[STATUS].CMD_LOST <- 1`, the only effect of a CMD write in Busy (10_state.md R31, 43_control.md R171). -/
def setCmdLost (s : State) : State := { s with status := { s.status with cmdLost := true } }

end Sys2Proof.Machine
end

