-- ==== Sys2Proof/Machine/Memory.lean ====
section
/-! DEFINITION. System memory: one byte at an address, and lists of bytes (10_state.md R43, 00_scope.md R8). -/

namespace Sys2Proof.Machine

/-- The byte listed at an address, if something has written it. -/
def Memory.lookup : Memory → Nat → Option Byte
  | [], _ => none
  | (b, v) :: m, a => if b = a then some v else Memory.lookup m a

/-- `MemRead(a, 1)` (00_scope.md R8). A byte nothing has written holds a free value (70_reset_and_hazards.md
R212, U21; log 5). -/
def Memory.read (m : Memory) (a : Nat) : Byte :=
  match Memory.lookup m a with
  | some v => v
  | none => Config.powerUpByte a

/-- `MemWrite(a, 1, v)` (00_scope.md R8); keeps the addresses strictly rising. -/
def Memory.write : Memory → Nat → Byte → Memory
  | [], a, v => [(a, v)]
  | (b, u) :: m, a, v =>
    if a < b then (a, v) :: (b, u) :: m
    else if a = b then (a, v) :: m
    else (b, u) :: Memory.write m a v

/-- A list of byte writes, first to last. -/
def Memory.writeAll : Memory → List Host.Cell → Memory
  | m, [] => m
  | m, c :: cs => Memory.writeAll (Memory.write m c.1 c.2) cs

/-- Draw number `n` of *any value* for each address: "draw per byte" (43_control.md R172; log 4). -/
def anyCells (n : Nat) (addresses : List Nat) : List Host.Cell :=
  addresses.map fun a => (a, Config.anyByte n a)

/-- The canonical form: addresses strictly rising, each one system memory has (20_memory.md R60). An unlisted
address has no listed value, so no entry repeats what it reads as (log 5). -/
abbrev Memory.wf (m : Memory) : Prop :=
  m.Pairwise (fun c d => c.1 < d.1) ∧ ∀ c ∈ m, c.1 < Config.addrLimit

end Sys2Proof.Machine
end

