-- ==== Sys2Proof/WellFormed.lean ====
section
/-! DEFINITION. Well-formedness. A command carries no operand, so every `Instr` is well formed; what can be
ill formed is a command word, by either of the two checks of 30_encoding.md R91 and R92. -/

namespace Sys2Proof

/-- No constructor has an operand to check (30_encoding.md R90). -/
def Instr.wellFormed : Instr → Bool
  | .nop => true
  | .cscFwd => true
  | .cscInv => true
  | .repack => true

/-- Bits [31:4] are reserved and must be zero (30_encoding.md R90, R92). -/
def reservedBitsZero (w : Word) : Bool := w.toNat / 16 == 0

/-- The opcode is one of the four that are not reserved (30_encoding.md R91). -/
def opcodeAssigned (w : Word) : Bool := w.toNat % 16 < 4

/-- A command word the block gives a meaning other than BAD_CMD (30_encoding.md R92). -/
def commandWordWellFormed (w : Word) : Bool := reservedBitsZero w && opcodeAssigned w

end Sys2Proof
end

