-- ==== Sys2Proof/Decode.lean ====
section
/-! DEFINITION. Decoding and encoding of command words (30_encoding.md R90 to R93), and of their bytes in the
register's little-endian order (20_memory.md R67). -/

namespace Sys2Proof

/-- Why bits are no command. The first two are the illegal encodings of 30_encoding.md R92, which the block
answers with BAD_CMD. -/
inductive DecodeError where
  /-- A bit of [31:4] is set (R92). -/
  | reservedBits
  /-- OP is 0x4 to 0xF (R91). -/
  | reservedOpcode
  /-- Fewer than four bytes: no command word. The register port cannot write one (R93). -/
  | truncated
  deriving DecidableEq, Repr

/-- OP, bits [3:0] (R90). -/
def opField (w : Word) : Nibble := w.extractLsb' 0 4

/-- RSVD, bits [31:4] (R90). -/
def reservedField (w : Word) : BitVec 28 := w.extractLsb' 4 28

/-- The opcode table of R91; the values 0x4 to 0xF are reserved. -/
def commandOf (op : Nibble) : Option Instr :=
  if op = 0x0 then some .nop
  else if op = 0x1 then some .cscFwd
  else if op = 0x2 then some .cscInv
  else if op = 0x3 then some .repack
  else none

/-- The command a word written to CMD stands for, or why it stands for none (R91, R92). -/
def decode (w : Word) : Except DecodeError Instr :=
  if reservedField w = 0 then
    match commandOf (opField w) with
    | some i => .ok i
    | none => .error .reservedOpcode
  else .error .reservedBits

/-- The word whose byte at the lowest offset is `b0` (20_memory.md R67). -/
def wordOfBytes (b0 b1 b2 b3 : Byte) : Word := b3 ++ b2 ++ b1 ++ b0

/-- The bytes of a word, lowest offset first (20_memory.md R67). -/
def bytesOfWord (w : Word) : List Byte :=
  [w.extractLsb' 0 8, w.extractLsb' 8 8, w.extractLsb' 16 8, w.extractLsb' 24 8]

/-- Decoding of bytes, total, with the bytes that follow the command. -/
def decodeBytes : List Byte → Except DecodeError (Instr × List Byte)
  | b0 :: b1 :: b2 :: b3 :: rest =>
    match decode (wordOfBytes b0 b1 b2 b3) with
    | .ok i => .ok (i, rest)
    | .error e => .error e
  | _ => .error .truncated

/-- The command word of a command (30_encoding.md R91, R97; R110, R130, R150, R175). -/
def encode : Instr → Word
  | .nop => 0x00000000
  | .cscFwd => 0x00000001
  | .cscInv => 0x00000002
  | .repack => 0x00000003

/-- The command read from an instruction whose bits are `w`, of which the table gives `nbits`: the bits above
are zero, and the word is laid out in bytes as the register port carries it. No encoding is longer than 32
bits (30_encoding.md R93). -/
def decodeTableWord (nbits w : Nat) : Option Instr :=
  if nbits ≤ 32 then
    match decodeBytes (bytesOfWord (BitVec.ofNat 32 (w % 2 ^ nbits))) with
    | .ok (i, _) => some i
    | .error _ => none
  else none

end Sys2Proof
end

