-- ==== Sys2Proof/Machine/Pixel.lean ====
section
/-! DEFINITION. The pixel arithmetic, on exact integers (00_scope.md R6, R7): the forward matrix
(40_csc_forward.md R111, R112), the inverse matrix (41_csc_inverse.md R131), and the constant coefficient
tables an implementation may hold (10_state.md R42). -/

namespace Sys2Proof.Machine

/-- `x >> 8` as floor(x / 256); division by a positive number rounds down (00_scope.md R7). -/
def asr8 (x : Int) : Int := x / 256

/-- Saturation to [0, 255] (00_scope.md R7). -/
def clamp8 (x : Int) : Int := if x < 0 then 0 else if 255 < x then 255 else x

/-- `ceil2(a)`, the half rounded up (00_scope.md R7). -/
def ceil2 (a : Nat) : Nat := (a + 1) / 2

/-- A sample as the unsigned integer the formulas use (00_scope.md R6). -/
def sample (b : Byte) : Int := b.toNat

/-- A clamped result as a byte. -/
def byteOfInt (x : Int) : Byte := BitVec.ofInt 8 x

/-- The luma sum before the shift (40_csc_forward.md R111, R118). -/
def lumaSum (r g b : Byte) : Int := 66 * sample r + 129 * sample g + 25 * sample b + 128

/-- The U sum before the shift (40_csc_forward.md R112, R118). -/
def cbSum (r g b : Byte) : Int := -38 * sample r - 74 * sample g + 112 * sample b + 128

/-- The V sum before the shift (40_csc_forward.md R112, R118). -/
def crSum (r g b : Byte) : Int := 112 * sample r - 94 * sample g - 18 * sample b + 128

/-- `LumaF` (40_csc_forward.md R111). -/
def lumaF (r g b : Byte) : Byte := byteOfInt (clamp8 (asr8 (lumaSum r g b) + 16))

/-- `CbF`, the U function (40_csc_forward.md R112). -/
def cbF (r g b : Byte) : Byte := byteOfInt (clamp8 (asr8 (cbSum r g b) + 128))

/-- `CrF`, the V function (40_csc_forward.md R112). -/
def crF (r g b : Byte) : Byte := byteOfInt (clamp8 (asr8 (crSum r g b) + 128))

/-- The R sum before the shift (41_csc_inverse.md R131). -/
def redSum (y _u v : Byte) : Int := 298 * (sample y - 16) + 409 * (sample v - 128) + 128

/-- The G sum before the shift (41_csc_inverse.md R131). -/
def greenSum (y u v : Byte) : Int :=
  298 * (sample y - 16) - 100 * (sample u - 128) - 208 * (sample v - 128) + 128

/-- The B sum before the shift (41_csc_inverse.md R131). -/
def blueSum (y u _v : Byte) : Int := 298 * (sample y - 16) + 516 * (sample u - 128) + 128

/-- The R byte of `InvF` (41_csc_inverse.md R131). -/
def redF (y u v : Byte) : Byte := byteOfInt (clamp8 (asr8 (redSum y u v)))

/-- The G byte of `InvF` (41_csc_inverse.md R131). -/
def greenF (y u v : Byte) : Byte := byteOfInt (clamp8 (asr8 (greenSum y u v)))

/-- The B byte of `InvF` (41_csc_inverse.md R131). -/
def blueF (y u v : Byte) : Byte := byteOfInt (clamp8 (asr8 (blueSum y u v)))

/-- The constant table of a coefficient `k` and an offset `o`: entry `v` is `k·(v − o)` (10_state.md R42). -/
def coefTable (k o : Int) : List Int := (List.range 256).map fun v : Nat => k * ((v : Int) - o)

/-- The entry of a table at a sample. -/
def tableAt (t : List Int) (b : Byte) : Int := t.getD b.toNat 0

/-- The forward functions read from tables, one per coefficient (40_csc_forward.md R117). -/
def lumaFByTable (r g b : Byte) : Byte :=
  byteOfInt (clamp8 (asr8 (tableAt (coefTable 66 0) r + tableAt (coefTable 129 0) g
    + tableAt (coefTable 25 0) b + 128) + 16))

/-- `CbF` read from tables (40_csc_forward.md R117). -/
def cbFByTable (r g b : Byte) : Byte :=
  byteOfInt (clamp8 (asr8 (tableAt (coefTable (-38) 0) r + tableAt (coefTable (-74) 0) g
    + tableAt (coefTable 112 0) b + 128) + 128))

/-- `CrF` read from tables (40_csc_forward.md R117). -/
def crFByTable (r g b : Byte) : Byte :=
  byteOfInt (clamp8 (asr8 (tableAt (coefTable 112 0) r + tableAt (coefTable (-94) 0) g
    + tableAt (coefTable (-18) 0) b + 128) + 128))

/-- The R byte of `InvF` read from tables (41_csc_inverse.md R136). -/
def redFByTable (y _u v : Byte) : Byte :=
  byteOfInt (clamp8 (asr8 (tableAt (coefTable 298 16) y + tableAt (coefTable 409 128) v + 128)))

/-- The G byte of `InvF` read from tables (41_csc_inverse.md R136). -/
def greenFByTable (y u v : Byte) : Byte :=
  byteOfInt (clamp8 (asr8 (tableAt (coefTable 298 16) y - tableAt (coefTable 100 128) u
    - tableAt (coefTable 208 128) v + 128)))

/-- The B byte of `InvF` read from tables (41_csc_inverse.md R136). -/
def blueFByTable (y u _v : Byte) : Byte :=
  byteOfInt (clamp8 (asr8 (tableAt (coefTable 298 16) y + tableAt (coefTable 516 128) u + 128)))

end Sys2Proof.Machine
end

