-- ==== Sys2Proof/Machine/Operands.lean ====
section
/-! DEFINITION. Operand assembly (30_encoding.md R94, R95), plane addressing (20_memory.md R68), footprints and
their range, overlap and platform conditions (20_memory.md R61, R62, R69, R71, R79), and the stride minimums
(60_exceptions.md R181). -/

namespace Sys2Proof.Machine

/-- DIM.WIDTH, bits 15:0 (10_state.md R35). -/
def widthField (dim : Word) : Half := dim.extractLsb' 0 16

/-- DIM.HEIGHT, bits 31:16 (10_state.md R35). -/
def heightField (dim : Word) : Half := dim.extractLsb' 16 16

/-- `L`, as acceptance of the word `w` copies it (43_control.md R170, 30_encoding.md R94, R95). -/
def latchOperands (w : Word) (r : ConfigRegs) : Latched :=
  { op := opField w, width := widthField r.dim, height := heightField r.dim, planes := r.planes }

/-- `L.W` (30_encoding.md R94). -/
def Latched.W (l : Latched) : Nat := l.width.toNat

/-- `L.H` (30_encoding.md R94). -/
def Latched.H (l : Latched) : Nat := l.height.toNat

/-- `L.CW` (30_encoding.md R94). -/
def Latched.CW (l : Latched) : Nat := ceil2 l.W

/-- `L.CH` (30_encoding.md R94). -/
def Latched.CH (l : Latched) : Nat := ceil2 l.H

/-- The address of sample `(row, col)` of a plane of `unit` bytes a sample (20_memory.md R68). -/
def planeAddress (base stride : Word) (unit row col : Nat) : Nat :=
  base.toNat + row * stride.toNat + unit * col

/-- The R byte of RGBA pixel `(row, col)`; G, B and A follow it (20_memory.md R66, R68). -/
def Latched.rgbaAt (l : Latched) (row col : Nat) : Nat :=
  planeAddress l.planes.rgbaBase l.planes.rgbaStride 4 row col

/-- Source Y sample (20_memory.md R68). -/
def Latched.srcYAt (l : Latched) (row col : Nat) : Nat :=
  planeAddress l.planes.srcYBase l.planes.srcYStride 1 row col

/-- Source U sample (20_memory.md R68). -/
def Latched.srcUAt (l : Latched) (i j : Nat) : Nat :=
  planeAddress l.planes.srcUBase l.planes.srcUVStride 1 i j

/-- Source V sample (20_memory.md R68). -/
def Latched.srcVAt (l : Latched) (i j : Nat) : Nat :=
  planeAddress l.planes.srcVBase l.planes.srcUVStride 1 i j

/-- Destination Y sample (20_memory.md R68). -/
def Latched.dstYAt (l : Latched) (row col : Nat) : Nat :=
  planeAddress l.planes.dstYBase l.planes.dstYStride 1 row col

/-- Destination U sample (20_memory.md R68). -/
def Latched.dstUAt (l : Latched) (i j : Nat) : Nat :=
  planeAddress l.planes.dstUBase l.planes.dstUVStride 1 i j

/-- Destination V sample (20_memory.md R68). -/
def Latched.dstVAt (l : Latched) (i j : Nat) : Nat :=
  planeAddress l.planes.dstVBase l.planes.dstUVStride 1 i j

/-- The footprint of a plane (20_memory.md R62). -/
def planeFootprint (base stride : Word) (rows rowBytes : Nat) : Footprint :=
  { base := base.toNat, stride := stride.toNat, rows := rows, rowBytes := rowBytes }

/-- The footprint of the RGBA plane (20_memory.md R62). -/
def rgbaFootprint (l : Latched) : Footprint :=
  planeFootprint l.planes.rgbaBase l.planes.rgbaStride l.H (4 * l.W)

/-- The three source footprints (20_memory.md R62). -/
def srcFootprints (l : Latched) : List Footprint :=
  [planeFootprint l.planes.srcYBase l.planes.srcYStride l.H l.W,
   planeFootprint l.planes.srcUBase l.planes.srcUVStride l.CH l.CW,
   planeFootprint l.planes.srcVBase l.planes.srcUVStride l.CH l.CW]

/-- The three destination footprints (20_memory.md R62). -/
def dstFootprints (l : Latched) : List Footprint :=
  [planeFootprint l.planes.dstYBase l.planes.dstYStride l.H l.W,
   planeFootprint l.planes.dstUBase l.planes.dstUVStride l.CH l.CW,
   planeFootprint l.planes.dstVBase l.planes.dstUVStride l.CH l.CW]

/-- The read footprints of a command; their union is `RFP` (20_memory.md R62). -/
def readFootprints (i : Instr) (l : Latched) : List Footprint :=
  match i with
  | .nop => []
  | .cscFwd => [rgbaFootprint l]
  | .cscInv => srcFootprints l
  | .repack => srcFootprints l

/-- The write footprints of a command; their union is `WFP` (20_memory.md R62). -/
def writeFootprints (i : Instr) (l : Latched) : List Footprint :=
  match i with
  | .nop => []
  | .cscFwd => dstFootprints l
  | .cscInv => [rgbaFootprint l]
  | .repack => dstFootprints l

/-- Read and write footprints, `Footprints(L.op)` of 60_exceptions.md R181. -/
def footprints (i : Instr) (l : Latched) : List Footprint :=
  readFootprints i l ++ writeFootprints i l

/-- Membership in the set of 20_memory.md R62. -/
def Footprint.contains (f : Footprint) (a : Nat) : Bool :=
  (List.range f.rows).any fun r =>
    decide (f.base + r * f.stride ≤ a) && decide (a < f.base + r * f.stride + f.rowBytes)

/-- The elements of the set of 20_memory.md R62. -/
def Footprint.addresses (f : Footprint) : List Nat :=
  (List.range f.rows).flatMap fun r => (List.range f.rowBytes).map fun t => f.base + r * f.stride + t

/-- Membership in a union of footprints. -/
def inFootprints (fs : List Footprint) (a : Nat) : Bool := fs.any fun f => f.contains a

/-- The elements of a union of footprints. -/
def footprintAddresses (fs : List Footprint) : List Nat := fs.flatMap Footprint.addresses

/-- **In range**: the largest address is one system memory has, over the integers (20_memory.md R69). -/
def Footprint.inRange (f : Footprint) : Bool :=
  decide (f.base + (f.rows - 1) * f.stride + f.rowBytes ≤ Config.addrLimit)

/-- Some byte lies in two of the footprints (20_memory.md R79). -/
def sharesByte : List Footprint → Bool
  | [] => false
  | f :: fs => f.addresses.any (inFootprints fs) || sharesByte fs

/-- **Overlaps** (20_memory.md R79). -/
def overlaps (i : Instr) (l : Latched) : Bool :=
  (footprintAddresses (writeFootprints i l)).any (inFootprints (readFootprints i l))
    || sharesByte (writeFootprints i l)

/-- `StrideReq(L.op)`: pairs of a stride and its minimum (60_exceptions.md R181). -/
def strideReq (i : Instr) (l : Latched) : List (Nat × Nat) :=
  match i with
  | .nop => []
  | .cscFwd =>
    [(l.planes.rgbaStride.toNat, 4 * l.W), (l.planes.dstYStride.toNat, l.W),
     (l.planes.dstUVStride.toNat, l.CW)]
  | .cscInv =>
    [(l.planes.srcYStride.toNat, l.W), (l.planes.srcUVStride.toNat, l.CW),
     (l.planes.rgbaStride.toNat, 4 * l.W)]
  | .repack =>
    [(l.planes.srcYStride.toNat, l.W), (l.planes.srcUVStride.toNat, l.CW),
     (l.planes.dstYStride.toNat, l.W), (l.planes.dstUVStride.toNat, l.CW)]

/-- Membership in a list of regions. -/
def inRegions (rs : List Region) (a : Nat) : Bool :=
  rs.any fun r => decide (r.first ≤ a) && decide (a ≤ r.last)

/-- `BusOK(a, dir)` (20_memory.md R61). -/
def busOK (p : Platform) (a : Nat) (dir : Dir) : Bool :=
  match dir with
  | .read => !inRegions p.readErrors a
  | .write => !inRegions p.writeErrors a

/-- The address is on the register window as the host sees it (20_memory.md R60). -/
def onRegisterWindow (p : Platform) (a : Nat) : Bool :=
  match p.regBase with
  | some b => decide (b ≤ a) && decide (a < b + Config.regWindow)
  | none => false

/-- The address is not ordinary memory (20_memory.md R71). -/
def isDevice (p : Platform) (a : Nat) : Bool := inRegions p.devices a

/-- The precondition of a command: its footprints are ordinary memory and off the register window; else the
refusal of U8 or U9 (93_implementation_defined.md; log 8). -/
def footprintRefusal (p : Platform) (fs : List Footprint) : Option Refusal :=
  if (footprintAddresses fs).any (onRegisterWindow p) then some .footprintOnRegisterWindow
  else if (footprintAddresses fs).any (isDevice p) then some .footprintNotOrdinary
  else none

/-- Every access of the command is accepted: the first test of 43_control.md R172, negated. -/
def busAccepts (p : Platform) (i : Instr) (l : Latched) : Bool :=
  (footprintAddresses (readFootprints i l)).all (fun a => busOK p a .read)
    && (footprintAddresses (writeFootprints i l)).all (fun a => busOK p a .write)

end Sys2Proof.Machine
end

