-- ==== Sys2Proof/Machine/Ops.lean ====
section
/-! DEFINITION. The operations every command shares: raising an error (60_exceptions.md R182), acceptance
(43_control.md R170), completion (43_control.md R172), and reset (70_reset_and_hazards.md R210, R211). -/

namespace Sys2Proof.Machine

/-- `raise Error(code)`, the block's one form of taking an exception (60_exceptions.md R182, R184): ERR is set
and ERRCODE records why. There is no vector, no saved state and no other effect; `irq` follows (R186). Its
return is a W1C write of STATUS, `writeStatus` (60_exceptions.md R188). -/
def raiseError (code : ErrCode) (s : State) : State :=
  { s with status := { s.status with err := true, errCode := code } }

/-- The acceptance check of a command whose word is legal (60_exceptions.md R181, R183). -/
def checkCommand (i : Instr) (l : Latched) : ErrCode :=
  if i = .nop then .none
  else if l.W = 0 ∨ l.H = 0 then .badDim
  else if (strideReq i l).any (fun p => decide (p.1 < p.2)) then .badStride
  else if (footprints i l).any (fun f => !f.inRange) then .range
  else .none

/-- `Check(w, L)` (60_exceptions.md R181). -/
def check (w : Word) (l : Latched) : ErrCode :=
  match decode w with
  | .error _ => .badCmd
  | .ok i => checkCommand i l

/-- STATUS is about to show the outcome of the last started command no more. Where the host has not observed it,
its destination stays unobserved (70_reset_and_hazards.md R217; log 13). -/
def loseOutcome (s : State) : State :=
  { s with awaited := [], unobserved := footprintAddresses s.awaited ++ s.unobserved }

/-- A STATUS read with BUSY = 0 and DONE or ERR: the host has observed the outcome of the last started command,
if STATUS still shows it. No byte of its destination is unobserved any more (20_memory.md R73 (2),
70_reset_and_hazards.md R217; log 13). -/
def observeStatus (s : State) : State :=
  match s.phase with
  | .idle =>
    if s.status.done || s.status.err then
      { s with awaited := [], unobserved := s.unobserved.filter fun a => !inFootprints s.awaited a }
    else s
  | .busy => s

/-- What acceptance does before its check (43_control.md R170): clears DONE, ERR, ERRCODE and taint, records
LAST_OP, latches `L`. -/
def beginAccept (w : Word) (s : State) : State :=
  { loseOutcome s with
    status := { s.status with done := false, err := false, errCode := .none, lastOp := opField w }
    latch := latchOperands w s.regs
    taint := false }

/-- `phase <- Busy` (43_control.md R170). The destination waits to be observed (log 13). -/
def startEngine (i : Instr) (s : State) : State :=
  { s with phase := .busy, awaited := writeFootprints i s.latch }

/-- An accepted command that passed its check: NOP completes, another starts the engine (43_control.md R170),
provided its footprints are ordinary memory (log 8). -/
def startCommand (i : Instr) (s : State) : Out :=
  if i = .nop then .next (setDone s)
  else
    match footprintRefusal s.platform (footprints i s.latch) with
    | some r => .refused r
    | none => .next (startEngine i s)

/-- Command acceptance of the word `w` in Idle (43_control.md R170). -/
def accept (w : Word) (s : State) : Out :=
  let t := beginAccept w s
  match decode w with
  | .error _ => .next (raiseError .badCmd t)
  | .ok i =>
    match checkCommand i t.latch with
    | .none => startCommand i t
    | code => .next (raiseError code t)

/-- *Any value* for each listed address, one draw (43_control.md R172; log 4). -/
def drawBytes (addresses : List Nat) (s : State) : State :=
  { s with mem := s.mem.writeAll (anyCells s.draws addresses), draws := s.draws + 1 }

/-- The three branches of the completion step (43_control.md R172), the phase back to Idle. `effect` is the
command's `Perform`: the bytes it writes, from `L` and from memory as it stood before the step. -/
def completion (i : Instr) (effect : Latched → (Nat → Byte) → List Host.Cell) (s : State) : State :=
  let destination := footprintAddresses (writeFootprints i s.latch)
  if !busAccepts s.platform i s.latch then
    raiseError .bus
      { drawBytes (destination.filter fun a => busOK s.platform a .write) s with phase := .idle }
  else if overlaps i s.latch || s.taint then
    setDone { drawBytes destination s with phase := .idle }
  else
    setDone { s with mem := s.mem.writeAll (effect s.latch s.mem.read), phase := .idle }

/-- The completion step of the command `i` in Busy (43_control.md R172). The two tests before it fail in no
state a run reaches (logs 8, 15). -/
def complete (i : Instr) (effect : Latched → (Nat → Byte) → List Host.Cell) (s : State) : Out :=
  if (footprints i s.latch).any (fun f => !f.inRange) then .fault .addressOutOfRange
  else
    match footprintRefusal s.platform (footprints i s.latch) with
    | some r => .refused r
    | none => .next (completion i effect s)

/-- The stages of a command (log 2): acceptance in Idle, its completion by the engine in Busy. -/
def runCommand (i : Instr) (effect : Latched → (Nat → Byte) → List Host.Cell) (s : State) : Out :=
  match s.phase with
  | .idle => accept (encode i) s
  | .busy => complete i effect s

/-- Every piece of block state at its reset value (70_reset_and_hazards.md R210); memory is not touched. An
outcome the host has not observed is lost with STATUS (log 13). -/
def blockReset (s : State) : State :=
  { loseOutcome s with
    irqEn := false
    status := Status.reset
    regs := ConfigRegs.reset
    phase := .idle
    latch := Latched.reset
    taint := false }

/-- A running command is abandoned: every byte of its destination is any value, in memory itself (R211), so
no byte of it stays unobserved (log 13). -/
def abandon (destination : List Nat) (s : State) : State :=
  { drawBytes destination s with
    awaited := [], unobserved := s.unobserved.filter fun a => !destination.contains a }

/-- The command the engine is performing, from the latched opcode. -/
def runningCommand (s : State) : Option Instr :=
  match s.phase with
  | .idle => none
  | .busy => commandOf s.latch.op

/-- `rst` asserted (70_reset_and_hazards.md R210, R211): a running command is abandoned and every byte of its
`WFP` is any value; no byte outside it changes (R212). -/
def assertReset (s : State) : Out :=
  match runningCommand s with
  | none => .next { blockReset s with rst := true }
  | some i =>
    if (writeFootprints i s.latch).any (fun f => !f.inRange) then .fault .addressOutOfRange
    else
      .next { blockReset (abandon (footprintAddresses (writeFootprints i s.latch)) s) with rst := true }

end Sys2Proof.Machine
end

