-- ==== Sys2Proof/Machine/Control.lean ====
section
/-! DEFINITION. NOP (43_control.md R175). -/

namespace Sys2Proof.Machine

/-- NOP accesses no memory (20_memory.md R62). -/
def nopCells (_l : Latched) (_rd : Nat → Byte) : List Host.Cell := []

/-- NOP: at acceptance DONE is set; nothing is checked and the phase stays Idle (43_control.md R175). -/
def execNop (s : State) : Out := runCommand .nop nopCells s

end Sys2Proof.Machine
end

