-- ==== Sys2Proof/Machine/CscForward.lean ====
section
/-! DEFINITION. CSC_FWD: the forward matrix with top-left chroma sampling (40_csc_forward.md R110 to R118). -/

namespace Sys2Proof.Machine

/-- A function of the R, G and B bytes of a packed pixel; the A byte is ignored (20_memory.md R66,
40_csc_forward.md R114). -/
def ofPixel (f : Byte → Byte → Byte → Byte) (rd : Nat → Byte) (p : Nat) : Byte :=
  f (rd p) (rd (p + 1)) (rd (p + 2))

/-- The Y byte of every pixel (40_csc_forward.md R110, R111). -/
def forwardLuma (l : Latched) (rd : Nat → Byte) : List Host.Cell :=
  (List.range l.H).flatMap fun row => (List.range l.W).map fun col =>
    (l.dstYAt row col, ofPixel lumaF rd (l.rgbaAt row col))

/-- The U and V bytes of every 2×2 block, from its top-left pixel (40_csc_forward.md R110, R112, R113). -/
def forwardChroma (l : Latched) (rd : Nat → Byte) : List Host.Cell :=
  (List.range l.CH).flatMap fun i => (List.range l.CW).flatMap fun j =>
    [(l.dstUAt i j, ofPixel cbF rd (l.rgbaAt (2 * i) (2 * j))),
     (l.dstVAt i j, ofPixel crF rd (l.rgbaAt (2 * i) (2 * j)))]

/-- `Perform` of CSC_FWD (40_csc_forward.md R110). -/
def forwardCells (l : Latched) (rd : Nat → Byte) : List Host.Cell :=
  forwardLuma l rd ++ forwardChroma l rd

/-- CSC_FWD (40_csc_forward.md R110). -/
def execCscFwd (s : State) : Out := runCommand .cscFwd forwardCells s

end Sys2Proof.Machine
end

