-- ==== Sys2Proof/Machine/CscInverse.lean ====
section
/-! DEFINITION. CSC_INV: the inverse matrix with nearest-neighbour chroma (41_csc_inverse.md R130 to R138). -/

namespace Sys2Proof.Machine

/-- A function of the Y, U and V samples pixel `(row, col)` takes; its chroma is that of its 2×2 block
(41_csc_inverse.md R130, R132). -/
def ofSamples (f : Byte → Byte → Byte → Byte) (l : Latched) (rd : Nat → Byte) (row col : Nat) : Byte :=
  f (rd (l.srcYAt row col)) (rd (l.srcUAt (row / 2) (col / 2))) (rd (l.srcVAt (row / 2) (col / 2)))

/-- The four bytes of pixel `(row, col)`; A is written 255 (41_csc_inverse.md R130, R131, R133). -/
def inversePixel (l : Latched) (rd : Nat → Byte) (row col : Nat) : List Host.Cell :=
  [(l.rgbaAt row col, ofSamples redF l rd row col),
   (l.rgbaAt row col + 1, ofSamples greenF l rd row col),
   (l.rgbaAt row col + 2, ofSamples blueF l rd row col),
   (l.rgbaAt row col + 3, 255)]

/-- `Perform` of CSC_INV (41_csc_inverse.md R130). -/
def inverseCells (l : Latched) (rd : Nat → Byte) : List Host.Cell :=
  (List.range l.H).flatMap fun row => (List.range l.W).flatMap fun col => inversePixel l rd row col

/-- CSC_INV (41_csc_inverse.md R130). -/
def execCscInv (s : State) : Out := runCommand .cscInv inverseCells s

end Sys2Proof.Machine
end

