-- ==== Sys2Proof/Machine/RowResampler.lean ====
section
/-! DEFINITION. REPACK: the stride-aware copy of three planes (42_row_resampler.md R150 to R154). -/

namespace Sys2Proof.Machine

/-- The W × H luma samples, unchanged (42_row_resampler.md R150, R151, R153). -/
def repackLuma (l : Latched) (rd : Nat → Byte) : List Host.Cell :=
  (List.range l.H).flatMap fun row => (List.range l.W).map fun col =>
    (l.dstYAt row col, rd (l.srcYAt row col))

/-- The CW × CH samples of U and of V, unchanged (42_row_resampler.md R150, R151, R153). -/
def repackChroma (l : Latched) (rd : Nat → Byte) : List Host.Cell :=
  (List.range l.CH).flatMap fun i => (List.range l.CW).flatMap fun j =>
    [(l.dstUAt i j, rd (l.srcUAt i j)), (l.dstVAt i j, rd (l.srcVAt i j))]

/-- `Perform` of REPACK (42_row_resampler.md R150). -/
def repackCells (l : Latched) (rd : Nat → Byte) : List Host.Cell :=
  repackLuma l rd ++ repackChroma l rd

/-- REPACK (42_row_resampler.md R150). -/
def execRepack (s : State) : Out := runCommand .repack repackCells s

end Sys2Proof.Machine
end

