-- ==== Sys2Proof/Machine/Dispatch.lean ====
section
/-! DEFINITION. One arm per command of spec/opcode_table.json. -/

namespace Sys2Proof.Machine

/-- A command's next stage (log 2): in Idle its acceptance (43_control.md R170), in Busy its completion by the
engine (43_control.md R172). -/
def exec (i : Instr) (s : State) : Host.Outcome State Fault Refusal :=
  match i with
  | .nop => Sys2Proof.Machine.execNop s
  | .cscFwd => Sys2Proof.Machine.execCscFwd s
  | .cscInv => Sys2Proof.Machine.execCscInv s
  | .repack => Sys2Proof.Machine.execRepack s

end Sys2Proof.Machine
end

