-- ==== Sys2Proof/Machine/HostPort.lean ====
section
/-! DEFINITION. The host's side of the block: the register map and its accesses (10_state.md R22 to R39), the
CMD write (43_control.md R170, R171), host accesses to system memory (20_memory.md R73, R74, R77;
70_reset_and_hazards.md R215, R217), the engine's turn (43_control.md R172), and what one input does. -/

namespace Sys2Proof.Machine

/-- `Perform(L.op, L, mem)` of 43_control.md R172: the bytes a command writes, by its family's definition. -/
def performCells (i : Instr) : Latched → (Nat → Byte) → List Host.Cell :=
  match i with
  | .nop => nopCells
  | .cscFwd => forwardCells
  | .cscInv => inverseCells
  | .repack => repackCells

/-- The named registers of 10_state.md R22. -/
inductive Reg where
  | ctrl
  | status
  | cmd
  | dim
  | rgbaBase
  | rgbaStride
  | srcYBase
  | srcUBase
  | srcVBase
  | srcYStride
  | srcUVStride
  | dstYBase
  | dstUBase
  | dstVBase
  | dstYStride
  | dstUVStride
  deriving DecidableEq, Repr

/-- The offset of a register (10_state.md R22). -/
def regOffset : Reg → Byte
  | .ctrl => 0x00
  | .status => 0x04
  | .cmd => 0x08
  | .dim => 0x0C
  | .rgbaBase => 0x10
  | .rgbaStride => 0x14
  | .srcYBase => 0x18
  | .srcUBase => 0x1C
  | .srcVBase => 0x20
  | .srcYStride => 0x24
  | .srcUVStride => 0x28
  | .dstYBase => 0x2C
  | .dstUBase => 0x30
  | .dstVBase => 0x34
  | .dstYStride => 0x38
  | .dstUVStride => 0x3C

/-- The registers in the order of their offsets. -/
def allRegs : List Reg :=
  [.ctrl, .status, .cmd, .dim, .rgbaBase, .rgbaStride, .srcYBase, .srcUBase, .srcVBase, .srcYStride,
   .srcUVStride, .dstYBase, .dstUBase, .dstVBase, .dstYStride, .dstUVStride]

/-- The register at an offset; `none` at a reserved offset (10_state.md R22, R24). -/
def regAt (offset : Byte) : Option Reg := allRegs.find? fun r => regOffset r == offset

/-- The defined accesses: naturally aligned, 32 bits (10_state.md R23). -/
def accessDefined (offset : Byte) (size : Nat) : Bool := size == 4 && offset.toNat % 4 == 0

/-- The word a read of a register returns (10_state.md R22 to R39); CMD reads as 0 (R34). -/
def readReg (r : Reg) (s : State) : Word :=
  match r with
  | .ctrl => ctrlWord s
  | .status => statusWord s
  | .cmd => 0
  | .dim => s.regs.dim
  | .rgbaBase => s.regs.planes.rgbaBase
  | .rgbaStride => s.regs.planes.rgbaStride
  | .srcYBase => s.regs.planes.srcYBase
  | .srcUBase => s.regs.planes.srcUBase
  | .srcVBase => s.regs.planes.srcVBase
  | .srcYStride => s.regs.planes.srcYStride
  | .srcUVStride => s.regs.planes.srcUVStride
  | .dstYBase => s.regs.planes.dstYBase
  | .dstUBase => s.regs.planes.dstUBase
  | .dstVBase => s.regs.planes.dstVBase
  | .dstYStride => s.regs.planes.dstYStride
  | .dstUVStride => s.regs.planes.dstUVStride

/-- The word a read at an offset returns; a reserved offset reads 0 (10_state.md R24). -/
def readWord (offset : Byte) (s : State) : Word :=
  match regAt offset with
  | some r => readReg r s
  | none => 0

/-- A new value for a base or stride register (10_state.md R39); the others are left. -/
def setPlane (r : Reg) (v : Word) (p : Planes) : Planes :=
  match r with
  | .ctrl => p
  | .status => p
  | .cmd => p
  | .dim => p
  | .rgbaBase => { p with rgbaBase := v }
  | .rgbaStride => { p with rgbaStride := v }
  | .srcYBase => { p with srcYBase := v }
  | .srcUBase => { p with srcUBase := v }
  | .srcVBase => { p with srcVBase := v }
  | .srcYStride => { p with srcYStride := v }
  | .srcUVStride => { p with srcUVStride := v }
  | .dstYBase => { p with dstYBase := v }
  | .dstUBase => { p with dstUBase := v }
  | .dstVBase => { p with dstVBase := v }
  | .dstYStride => { p with dstYStride := v }
  | .dstUVStride => { p with dstUVStride := v }

/-- A write of a configuration register, in either phase (10_state.md R39). -/
def writeConfig (r : Reg) (v : Word) (s : State) : State :=
  if r = .dim then { s with regs := { s.regs with dim := v } }
  else { s with regs := { s.regs with planes := setPlane r v s.regs.planes } }

/-- A host write of a word to CMD: in Busy it is dropped (43_control.md R171); in Idle it is accepted (R170),
and a legal word runs its command's meaning. -/
def writeCmd (w : Word) (s : State) : Out :=
  match s.phase with
  | .busy => .next (setCmdLost s)
  | .idle =>
    match decode w with
    | .ok i => exec i s
    | .error _ => accept w s

/-- A host write of a named register. -/
def writeReg (r : Reg) (v : Word) (s : State) : Out :=
  match r with
  | .ctrl => .next (writeCtrl v s)
  | .status => .next (writeStatus v s)
  | .cmd => writeCmd v s
  | .dim => .next (writeConfig .dim v s)
  | .rgbaBase => .next (writeConfig .rgbaBase v s)
  | .rgbaStride => .next (writeConfig .rgbaStride v s)
  | .srcYBase => .next (writeConfig .srcYBase v s)
  | .srcUBase => .next (writeConfig .srcUBase v s)
  | .srcVBase => .next (writeConfig .srcVBase v s)
  | .srcYStride => .next (writeConfig .srcYStride v s)
  | .srcUVStride => .next (writeConfig .srcUVStride v s)
  | .dstYBase => .next (writeConfig .dstYBase v s)
  | .dstUBase => .next (writeConfig .dstUBase v s)
  | .dstVBase => .next (writeConfig .dstVBase v s)
  | .dstYStride => .next (writeConfig .dstYStride v s)
  | .dstUVStride => .next (writeConfig .dstUVStride v s)

/-- A host read of the register window. Its only effects are the reply and, for STATUS, that the host has
observed what it shows (10_state.md R23; 20_memory.md R73). -/
def hostRegRead (offset : Byte) (size : Nat) (s : State) : Out :=
  if !accessDefined offset size then .refused .hostAccessFault
  else
    let t := if regAt offset = some .status then observeStatus s else s
    .next { t with reply := .word (readWord offset s) }

/-- A host write to the register window. A reserved offset ignores it (10_state.md R24). While `rst` is asserted
the block's state keeps its reset values (70_reset_and_hazards.md R210; log 14). -/
def hostRegWrite (offset : Byte) (size : Nat) (v : Word) (s : State) : Out :=
  if !accessDefined offset size then .refused .hostAccessFault
  else if s.rst then .next s
  else
    match regAt offset with
    | none => .next s
    | some r => writeReg r v s

/-- The read footprints of the running command; none in Idle. -/
def runningReads (s : State) : List Footprint :=
  match runningCommand s with
  | some i => readFootprints i s.latch
  | none => []

/-- The write footprints of the running command; none in Idle. -/
def runningWrites (s : State) : List Footprint :=
  match runningCommand s with
  | some i => writeFootprints i s.latch
  | none => []

/-- A byte a host read of which is any value: in Busy one of the running command's `WFP` (20_memory.md R74), in
Idle one that a command wrote whose completion is not observed (70_reset_and_hazards.md R217; log 13). -/
def unsettled (s : State) (a : Nat) : Bool :=
  match s.phase with
  | .busy => inFootprints (runningWrites s) a
  | .idle => inFootprints s.awaited a || s.unobserved.contains a

/-- A host access that stops: through the register window at `REG_BASE` it is a one-byte register access
(20_memory.md R60, 10_state.md R23; log 10), and the spec says nothing of a device (log 11). -/
def hostMemoryRefusal (p : Platform) (a : Nat) : Option Refusal :=
  if onRegisterWindow p a then some .hostAccessFault
  else if isDevice p a then some .hostDeviceAccess
  else none

/-- The host's path is coherent with the memory master port (20_memory.md R77; log 12). -/
def pathCoherent (p : Platform) (coherent : Bool) : Bool := p.hostCoherent || coherent

/-- The reply to a host memory read that is any value (93_implementation_defined.md U5, U14). -/
def replyAny (a : Nat) (s : State) : State :=
  { s with reply := .byte (Config.anyByte s.draws a), draws := s.draws + 1 }

/-- A host read of a byte of system memory. -/
def hostMemRead (address : Word) (coherent : Bool) (s : State) : Out :=
  let a := address.toNat
  match hostMemoryRefusal s.platform a with
  | some r => .refused r
  | none =>
    if unsettled s a || !pathCoherent s.platform coherent then .next (replyAny a s)
    else .next { s with reply := .byte (s.mem.read a) }

/-- A host write to a byte of the running command's footprints sets `taint` (70_reset_and_hazards.md R215). -/
def taintedBy (a : Nat) (s : State) : Bool :=
  s.taint || inFootprints (runningReads s) a || inFootprints (runningWrites s) a

/-- A host write of a byte of system memory. Off a coherent path the byte the memory master port sees is any
value (20_memory.md R77, U14; log 12). -/
def hostMemWrite (address : Word) (v : Byte) (coherent : Bool) (s : State) : Out :=
  let a := address.toNat
  match hostMemoryRefusal s.platform a with
  | some r => .refused r
  | none =>
    let t := { s with taint := taintedBy a s }
    if pathCoherent s.platform coherent then .next { t with mem := t.mem.write a v }
    else .next (drawBytes [a] t)

/-- The engine's turn: the completion step in Busy, nothing in Idle (43_control.md R172; 60_exceptions.md
R195). -/
def engineTurn (s : State) : Out :=
  match s.phase with
  | .idle => .next s
  | .busy =>
    match runningCommand s with
    | some i => exec i s
    | none => .fault .busyWithoutCommand

/-- What one input does (10_state.md R20, 70_reset_and_hazards.md R220). -/
def applyInput (e : Input) (s : State) : Out :=
  match e with
  | .engine => engineTurn s
  | .regRead offset size => hostRegRead offset size s
  | .regWrite offset size v => hostRegWrite offset size v s
  | .memRead a coherent => hostMemRead a coherent s
  | .memWrite a v coherent => hostMemWrite a v coherent s
  | .rstAssert => assertReset s
  | .rstRelease => .next { s with rst := false }

/-- The input that is a write of the command word `w` to CMD (10_state.md R34, 30_encoding.md R97). -/
def cmdInput (w : Word) : Input := .regWrite (regOffset .cmd) 4 w

/-- The state in which a write of the command word `w` is the next input and is accepted: the phase is Idle and
`rst` is released (log 3). -/
def placeCommand (w : Word) (s : State) : State :=
  { s with rst := false, phase := .idle, inputs := cmdInput w :: s.inputs }

end Sys2Proof.Machine
end

