-- ==== Sys2Proof/Machine/Step.lean ====
section
/-! DEFINITION. One step of the machine: the oldest pending input, or, where none is pending, the engine's turn
(43_control.md R172, R173; log 1). -/

namespace Sys2Proof.Machine

/-- One step. With no pending input and the engine idle nothing changes. -/
def step (s : State) : Host.Outcome State Fault Refusal :=
  match s.inputs with
  | [] => engineTurn s
  | e :: rest => applyInput e { s with inputs := rest }

/-- `s` with the instruction of bits `w` as the next one the machine takes: a command is fetched by no program
counter, but written to CMD by the host (10_state.md R21, R34; log 3). -/
def State.withFetchWord (s : State) (nbits w : Nat) : State :=
  placeCommand (BitVec.ofNat 32 (w % 2 ^ nbits)) s

end Sys2Proof.Machine
end

