-- ==== Sys2Proof/Machine/HostProgram.lean ====
section
/-! DEFINITION. The host program notation and its pseudo-instructions (30_encoding.md R96 to R99), and a host
program run beside the machine (43_control.md R176, R177). The block sees none of it but the register
transactions and memory (R96); the machine's own step does not depend on this file (log 22). -/

namespace Sys2Proof.Machine

/-- A condition of bound names (30_encoding.md R96). -/
inductive Cond where
  | always
  /-- `name[hi:lo] = value`; false where the name is not bound. -/
  | field (name : String) (hi lo value : Nat)
  | both (c d : Cond)
  | either (c d : Cond)
  deriving DecidableEq, Repr

/-- A host action of one step (30_encoding.md R96). MW and MR of several bytes are several of these. -/
inductive HostOp where
  | wr (offset : Byte) (value : Word)
  | rd (offset : Byte) (name : String)
  | mw (address : Word) (value : Byte)
  /-- Byte number `k` of `name`. -/
  | mr (address : Word) (name : String) (k : Nat)
  | label (name : String)
  | br (cond : Cond) (target : String)
  deriving DecidableEq, Repr

/-- `WR <REG>, <value>` (R96). -/
def wr (r : Reg) (v : Word) : List HostOp := [.wr (regOffset r) v]

/-- `RD <REG> -> <name>` (R96). -/
def rd (r : Reg) (name : String) : List HostOp := [.rd (regOffset r) name]

/-- `MW <addr>, <bytes...>` (R96). -/
def mw : Word → List Byte → List HostOp
  | _, [] => []
  | a, v :: vs => .mw a v :: mw (a + 1) vs

/-- `MR <addr>, <n> -> <name>` (R96). -/
def mr (a : Word) (n : Nat) (name : String) : List HostOp :=
  (List.range n).map fun k => .mr (a + BitVec.ofNat 32 k) name k

/-- `NOP`, `CSC_FWD`, `CSC_INV`, `REPACK` (R97). -/
def startOp (i : Instr) : List HostOp := wr .cmd (encode i)

/-- `SETDIM w, h` (R97). -/
def setDim (w h : Half) : List HostOp := wr .dim (h ++ w)

/-- `SETRGBA b, s` (R97). -/
def setRgba (b s : Word) : List HostOp := wr .rgbaBase b ++ wr .rgbaStride s

/-- `SETSRC yb, ub, vb, ys, uvs` (R97). -/
def setSrc (yb ub vb ys uvs : Word) : List HostOp :=
  wr .srcYBase yb ++ wr .srcUBase ub ++ wr .srcVBase vb ++ wr .srcYStride ys ++ wr .srcUVStride uvs

/-- `SETDST yb, ub, vb, ys, uvs` (R97). -/
def setDst (yb ub vb ys uvs : Word) : List HostOp :=
  wr .dstYBase yb ++ wr .dstUBase ub ++ wr .dstVBase vb ++ wr .dstYStride ys ++ wr .dstUVStride uvs

/-- `WAIT` goes on while busy, or while neither DONE nor ERR is set (R97). -/
def waiting (name : String) : Cond := .either (.field name 0 0 1) (.field name 2 1 0)

/-- `WAIT -> s`, with the label of its loop (R97). -/
def waitOp (loop name : String) : List HostOp := .label loop :: rd .status name ++ [.br (waiting name) loop]

/-- `ACK` (R97). -/
def ackOp : List HostOp := wr .status 0x0000000E

/-- The U base of the tight layout (30_encoding.md R98). -/
def tightU (b W H : Nat) : Word := BitVec.ofNat 32 (b + W * H)

/-- The V base of the tight layout (30_encoding.md R98). -/
def tightV (b W H : Nat) : Word := BitVec.ofNat 32 (b + W * H + ceil2 W * ceil2 H)

/-- `SETSRC.I420 b, W, H` (R98). -/
def setSrcI420 (b W H : Nat) : List HostOp :=
  setSrc (BitVec.ofNat 32 b) (tightU b W H) (tightV b W H) (BitVec.ofNat 32 W) (BitVec.ofNat 32 (ceil2 W))

/-- `SETDST.I420 b, W, H` (R98). -/
def setDstI420 (b W H : Nat) : List HostOp :=
  setDst (BitVec.ofNat 32 b) (tightU b W H) (tightV b W H) (BitVec.ofNat 32 W) (BitVec.ofNat 32 (ceil2 W))

/-- `SETRGBA.TIGHT b, W` (R98). -/
def setRgbaTight (b W : Nat) : List HostOp := setRgba (BitVec.ofNat 32 b) (BitVec.ofNat 32 (4 * W))

/-- The bytes the tight layout occupies (30_encoding.md R98, 42_row_resampler.md R151). -/
def tightSize (W H : Nat) : Nat := W * H + 2 * ceil2 W * ceil2 H

/-- The write transactions `(W, offset, value)` of a host program, in program order (R96, R99). -/
def writeTransactions : List HostOp → List (Byte × Word)
  | [] => []
  | .wr o v :: p => (o, v) :: writeTransactions p
  | .rd _ _ :: p => writeTransactions p
  | .mw _ _ :: p => writeTransactions p
  | .mr _ _ _ :: p => writeTransactions p
  | .label _ :: p => writeTransactions p
  | .br _ _ :: p => writeTransactions p

/-- The host's own control state: its place in the program and its bound names. -/
structure HostCtl where
  pc : Nat
  names : List ((String × Nat) × Word)
  deriving DecidableEq, Repr

/-- The value of a name, byte `k` for an MR name. -/
def nameValue (names : List ((String × Nat) × Word)) (key : String × Nat) : Option Word :=
  names.lookup key

/-- A condition on the bound names. DESIGN CHOICE log 22: a field of an MR name of several bytes is a field of
its byte 0; a field of a name that is not bound is false. -/
def Cond.holds (names : List ((String × Nat) × Word)) : Cond → Bool
  | .always => true
  | .field name hi lo value =>
    match nameValue names (name, 0) with
    | some w => w.toNat / 2 ^ lo % 2 ^ (hi + 1 - lo) == value
    | none => false
  | .both c d => c.holds names && d.holds names
  | .either c d => c.holds names || d.holds names

/-- Where a label stands. DESIGN CHOICE log 22: the first place where a program has several labels of the name,
past the end where it has none. -/
def labelAt (p : List HostOp) (name : String) : Nat := p.findIdx fun op => op == .label name

/-- Every branch goes to a label of the program. -/
def branchesResolved (p : List HostOp) : Bool :=
  p.all fun op =>
    match op with
    | .br _ target => decide (labelAt p target < p.length)
    | .wr _ _ => true
    | .rd _ _ => true
    | .mw _ _ => true
    | .mr _ _ _ => true
    | .label _ => true

/-- The machine's input a host action is, if the machine sees it at all (R96). -/
def inputOf : HostOp → Option Input
  | .wr o v => some (.regWrite o 4 v)
  | .rd o _ => some (.regRead o 4)
  | .mw a v => some (.memWrite a v true)
  | .mr a _ _ => some (.memRead a true)
  | .label _ => none
  | .br _ _ => none

/-- The value a reply carries. -/
def replyValue : Reply → Word
  | .noRead => 0
  | .word v => v
  | .byte v => v.setWidth 32

/-- The host's control state after an action, given the machine's reply. -/
def absorb (p : List HostOp) (op : HostOp) (r : Reply) (h : HostCtl) : HostCtl :=
  match op with
  | .wr _ _ => { h with pc := h.pc + 1 }
  | .mw _ _ => { h with pc := h.pc + 1 }
  | .label _ => { h with pc := h.pc + 1 }
  | .rd _ name => { pc := h.pc + 1, names := ((name, 0), replyValue r) :: h.names }
  | .mr _ name k => { pc := h.pc + 1, names := ((name, k), replyValue r) :: h.names }
  | .br c target => { h with pc := if c.holds h.names then labelAt p target else h.pc + 1 }

/-- The host is at an action the machine sees: a register transaction or a memory access. DESIGN CHOICE log 24:
both count as transactions of 43_control.md R177. -/
def atTransaction (p : List HostOp) (h : HostCtl) : Bool :=
  match p[h.pc]? with
  | some op => (inputOf op).isSome
  | none => false

/-- The host's place after `n` labels and branches, with the bound names as they stand. -/
def localActions (p : List HostOp) : Nat → HostCtl → HostCtl
  | 0, h => h
  | n + 1, h =>
    match p[h.pc]? with
    | some op => localActions p n (absorb p op .noRead h)
    | none => h

/-- The host program has performed its last transaction: however far it goes on, it comes to none (43_control.md
R177). -/
abbrev transactionsDone (p : List HostOp) (h : HostCtl) : Prop :=
  ∀ n, atTransaction p (localActions p n h) = false

/-- A host and the machine. -/
structure System where
  host : HostCtl
  machine : State
  deriving DecidableEq, Repr

/-- Whose turn it is (10_state.md R20); the schedule is open (43_control.md R173). -/
inductive Turn where
  | host
  | outside (e : Input)
  deriving DecidableEq, Repr

/-- One step of the machine on one input. -/
def stepInput (e : Input) (h : HostCtl) (s : State) : Host.Outcome System Fault Refusal :=
  match applyInput e s with
  | .next t => .next { host := h, machine := t }
  | .fault f => .fault f
  | .refused r => .refused r

/-- The host's turn: the action at its place in the program; nothing past the end (43_control.md R177). -/
def hostTurn (p : List HostOp) (y : System) : Host.Outcome System Fault Refusal :=
  match p[y.host.pc]? with
  | none => .next y
  | some op =>
    match inputOf op with
    | none => .next { y with host := absorb p op y.machine.reply y.host }
    | some e =>
      match applyInput e y.machine with
      | .next t => .next { host := absorb p op t.reply y.host, machine := t }
      | .fault f => .fault f
      | .refused r => .refused r

/-- One turn. -/
def runTurn (p : List HostOp) (y : System) : Turn → Host.Outcome System Fault Refusal
  | .host => hostTurn p y
  | .outside e => stepInput e y.host y.machine

/-- A schedule of turns, stopping at the first fault or refusal. -/
def runTurns (p : List HostOp) : List Turn → System → Host.Outcome System Fault Refusal
  | [], y => .next y
  | t :: ts, y =>
    match runTurn p y t with
    | .next y' => runTurns p ts y'
    | .fault f => .fault f
    | .refused r => .refused r

end Sys2Proof.Machine
end

