-- ==== Sys2Proof/Safety.lean ====
section
/-! DEFINITION. What counts as a safe run: the invariants of 10_state.md R45 and those the machine keeps beside
them, and the end of a command and of a run (43_control.md R177). -/

namespace Sys2Proof.Machine

/-- 10_state.md R45 (1) to (3). -/
abbrev statusConsistent (s : State) : Prop :=
  (s.phase = .busy → s.status.done = false ∧ s.status.err = false ∧ s.status.errCode = .none)
    ∧ ¬(s.status.done = true ∧ s.status.err = true)
    ∧ (s.status.err = false ↔ s.status.errCode = .none)

/-- The latched command passed acceptance as `i`: it checked out, its footprints are ordinary memory, and its
outcome is what the host awaits (log 13). -/
abbrev acceptedAs (i : Instr) (s : State) : Prop :=
  i ≠ .nop ∧ commandOf s.latch.op = some i ∧ checkCommand i s.latch = .none
    ∧ footprintRefusal s.platform (footprints i s.latch) = none
    ∧ s.awaited = writeFootprints i s.latch

/-- Only an accepted command that passed its check is ever running (43_control.md R170, R172). -/
abbrev runningLegal (s : State) : Prop :=
  s.phase = .busy → acceptedAs .cscFwd s ∨ acceptedAs .cscInv s ∨ acceptedAs .repack s

/-- The block's state has its reset value (70_reset_and_hazards.md R210). -/
abbrev blockAtReset (s : State) : Prop :=
  s.irqEn = false ∧ s.status = Status.reset ∧ s.regs = ConfigRegs.reset ∧ s.phase = .idle
    ∧ s.taint = false

/-- While `rst` stays asserted the block keeps its reset state (70_reset_and_hazards.md R210). -/
abbrev resetHeld (s : State) : Prop := s.rst = true → blockAtReset s

/-- The invariant of the machine: R45, a legal running command, reset held, and the canonical memory. -/
abbrev Inv (s : State) : Prop :=
  statusConsistent s ∧ runningLegal s ∧ resetHeld s ∧ s.mem.wf

/-- A command **has ended** (43_control.md R177). -/
abbrev commandEnded (s : State) : Prop :=
  s.phase = .idle ∧ (s.status.done = true ∨ s.status.err = true)

/-- An input is a transaction of the host (43_control.md R177; log 24). -/
def Input.isTransaction : Input → Bool
  | .engine => false
  | .regRead _ _ => true
  | .regWrite _ _ _ => true
  | .memRead _ _ => true
  | .memWrite _ _ _ => true
  | .rstAssert => false
  | .rstRelease => false

/-- A run whose transactions stand in the input list **ends** when none is left and the phase is Idle
(43_control.md R177). -/
abbrev runEnded (s : State) : Prop := s.phase = .idle ∧ ∀ e ∈ s.inputs, e.isTransaction = false

/-- A run of a host program **ends** when it has performed its last transaction and the phase is Idle
(43_control.md R177). -/
abbrev programRunEnded (p : List HostOp) (y : System) : Prop :=
  transactionsDone p y.host ∧ y.machine.phase = .idle

/-- The engine is running the accepted command `i`. -/
abbrev runningAs (i : Instr) (s : State) : Prop := s.phase = .busy ∧ acceptedAs i s

/-- Every access of the command is answered OK (20_memory.md R61, 60_exceptions.md R184). -/
abbrev busAnswersOK (i : Instr) (s : State) : Prop :=
  (∀ a ∈ footprintAddresses (readFootprints i s.latch), busOK s.platform a .read = true)
    ∧ ∀ a ∈ footprintAddresses (writeFootprints i s.latch), busOK s.platform a .write = true

/-- The conditions under which a running command's destination holds computed values: no bus error, no overlap,
no taint (43_control.md R172, R177). -/
abbrev runsCleanly (i : Instr) (s : State) : Prop :=
  runningAs i s ∧ busAnswersOK i s ∧ overlaps i s.latch = false ∧ s.taint = false

/-- The next input is a write of the word `w` to CMD, with `rst` released. -/
abbrev cmdWriteNext (w : Word) (rest : List Input) (s : State) : Prop :=
  s.rst = false ∧ s.inputs = cmdInput w :: rest

/-- The engine moves next: its turn is the next input, or none is pending (43_control.md R173). -/
abbrev engineNext (s : State) : Prop := s.inputs = [] ∨ s.inputs.head? = some .engine

end Sys2Proof.Machine
end

