-- ==== Sys2Proof/Certificates/Slice0/Obligations.lean ====
section
/-! DEFINITION. Statements for the provers, from the numbered rules of spec/. -/

open Sys2Proof Sys2Proof.Machine

/-! ## Encoding and fetching -/

/-- R92: the decoder recognises exactly the four words, and every other word is rejected with BAD_CMD at
acceptance, whatever its OP: ERR with ERRCODE = 1, no memory access, the phase stays Idle. -/
def Obligations.ExactlyFourWordsAreCommands : Prop :=
  (∀ (w : Word) (i : Instr), decode w = .ok i ↔ w = encode i) ∧
  ∀ (w : Word) (s : State) (rest : List Input),
    w ≠ 0x0 → w ≠ 0x1 → w ≠ 0x2 → w ≠ 0x3 → cmdWriteNext w rest s → s.phase = .idle →
    ∃ t, step s = .next t ∧ t.status.err = true ∧ t.status.errCode = .badCmd ∧ t.status.errCode.code = 1 ∧
      t.mem = s.mem ∧ t.draws = s.draws ∧ t.phase = .idle

/-- R91: the opcode table on words written out bit by bit; the opcodes 0x4 to 0xF are reserved, and a word with one
of them is BAD_CMD. -/
def Obligations.OpcodeTableDecodes : Prop :=
  decode 0b00000000000000000000000000000000 = .ok .nop ∧
  decode 0b00000000000000000000000000000001 = .ok .cscFwd ∧
  decode 0b00000000000000000000000000000010 = .ok .cscInv ∧
  decode 0b00000000000000000000000000000011 = .ok .repack ∧
  (∀ op : Nibble, 4 ≤ op.toNat → commandOf op = none) ∧
  ∀ (w : Word) (l : Latched), 4 ≤ (opField w).toNat → check w l = .badCmd

/-- R67, R93: a command is read from the four bytes of its word, lowest first, whatever bytes follow. -/
def Obligations.BytesDecodeAsTheirWord : Prop :=
  (∀ (w : Word) (rest : List Byte) (i : Instr), decode w = .ok i →
    decodeBytes (bytesOfWord w ++ rest) = .ok (i, rest)) ∧
  (∀ (w : Word) (rest : List Byte) (e : DecodeError), decode w = .error e →
    decodeBytes (bytesOfWord w ++ rest) = .error e) ∧
  ∀ i : Instr, decodeTableWord 32 (encode i).toNat = some i

/-- R34, R170: a write to CMD of a word that decodes to `i`, in Idle, is a step of `exec i`; the step only takes
the input off the list. -/
def Obligations.StepRunsTheDecodedCommand : Prop :=
  ∀ (s : State) (w : Word) (rest : List Input) (i : Instr),
    cmdWriteNext w rest s → s.phase = .idle → decode w = .ok i →
    step s = exec i { s with inputs := rest }

/-- R172: in Busy the engine's turn is a step of `exec` of the latched command. That the engine moves where no input
is pending is the model's choice (log 1, DESIGN CHOICE), its form of the fairness of R173. -/
def Obligations.StepRunsTheLatchedCommand : Prop :=
  ∀ (s : State) (i : Instr), s.phase = .busy → commandOf s.latch.op = some i → engineNext s →
    step s = exec i { s with inputs := s.inputs.tail }

/-! ## Acceptance -/

/-- R170: everything acceptance of a word does, for every word. `t.awaited` and `t.unobserved` are the model's own
ghost (log 13). The premise on footprints is U8 and U9 (log 8). -/
def Obligations.AcceptanceLatchesAndChecks : Prop :=
  ∀ (s : State) (w : Word) (rest : List Input), cmdWriteNext w rest s → s.phase = .idle →
    (∀ i, decode w = .ok i → check w (latchOperands w s.regs) = .none →
      footprintRefusal s.platform (footprints i (latchOperands w s.regs)) = none) →
    ∃ (t : State) (l : Latched), step s = .next t ∧
      l = { op := w.extractLsb' 0 4, width := s.regs.dim.extractLsb' 0 16,
            height := s.regs.dim.extractLsb' 16 16, planes := s.regs.planes } ∧
      t = { s with
            inputs := rest
            status :=
              { done := decide (check w l = .none ∧ w.extractLsb' 0 4 = 0)
                err := decide (check w l ≠ .none)
                cmdLost := s.status.cmdLost
                errCode := check w l
                lastOp := w.extractLsb' 0 4 }
            latch := l
            taint := false
            phase := if check w l = .none ∧ w.extractLsb' 0 4 ≠ 0 then .busy else .idle
            awaited := t.awaited
            unobserved := t.unobserved }

/-- R181, R183: the check returns the first failing code in the order BAD_CMD, BAD_DIM, BAD_STRIDE, RANGE; NOP
checks nothing; the stride minimums and footprints are those of the command. -/
def Obligations.CheckReturnsTheFirstFailingCode : Prop :=
  ∀ (w : Word) (l : Latched),
    let W := l.width.toNat
    let H := l.height.toNat
    let CW := (W + 1) / 2
    let CH := (H + 1) / 2
    let p := l.planes
    let fwd := w = 0x1
    let inv := w = 0x2
    let rep := w = 0x3
    let last := fun (base stride : Word) (n k : Nat) => base.toNat + (n - 1) * stride.toNat + k - 1
    let rgbaOut := 2 ^ 32 - 1 < last p.rgbaBase p.rgbaStride H (4 * W)
    let srcOut := 2 ^ 32 - 1 < last p.srcYBase p.srcYStride H W ∨
      2 ^ 32 - 1 < last p.srcUBase p.srcUVStride CH CW ∨ 2 ^ 32 - 1 < last p.srcVBase p.srcUVStride CH CW
    let dstOut := 2 ^ 32 - 1 < last p.dstYBase p.dstYStride H W ∨
      2 ^ 32 - 1 < last p.dstUBase p.dstUVStride CH CW ∨ 2 ^ 32 - 1 < last p.dstVBase p.dstUVStride CH CW
    let rgbaNarrow := p.rgbaStride.toNat < 4 * W
    let srcNarrow := p.srcYStride.toNat < W ∨ p.srcUVStride.toNat < CW
    let dstNarrow := p.dstYStride.toNat < W ∨ p.dstUVStride.toNat < CW
    let badCmd := w.extractLsb' 4 28 ≠ 0 ∨ 4 ≤ (w.extractLsb' 0 4).toNat
    let badDim := W = 0 ∨ H = 0
    let badStride := fwd ∧ (rgbaNarrow ∨ dstNarrow) ∨ inv ∧ (srcNarrow ∨ rgbaNarrow) ∨
      rep ∧ (srcNarrow ∨ dstNarrow)
    let outOfRange := fwd ∧ (rgbaOut ∨ dstOut) ∨ inv ∧ (srcOut ∨ rgbaOut) ∨ rep ∧ (srcOut ∨ dstOut)
    (badCmd → check w l = .badCmd) ∧
    (w = 0x0 → check w l = .none) ∧
    (¬badCmd → w ≠ 0x0 → badDim → check w l = .badDim) ∧
    (¬badCmd → w ≠ 0x0 → ¬badDim → badStride → check w l = .badStride) ∧
    (¬badCmd → w ≠ 0x0 → ¬badDim → ¬badStride → outOfRange → check w l = .range) ∧
    (¬badCmd → w ≠ 0x0 → ¬badDim → ¬badStride → ¬outOfRange → check w l = .none)

/-- R182: a rejection is precise. Only STATUS changes (and the hidden `L` and taint that acceptance
always writes, R170); `irq` rises where it is enabled. The last clause, that it settles no byte for the host, is the
model's reading (log 13, DEDUCED) and not R182's. -/
def Obligations.RejectionIsPrecise : Prop :=
  ∀ (s : State) (w : Word) (rest : List Input), cmdWriteNext w rest s → s.phase = .idle →
    check w (latchOperands w s.regs) ≠ .none →
    ∃ t, step s = .next t ∧ t.status.err = true ∧ t.status.errCode = check w (latchOperands w s.regs) ∧
      t.status.done = false ∧ t.phase = .idle ∧ t.mem = s.mem ∧ t.regs = s.regs ∧
      t.irqEn = s.irqEn ∧ t.status.cmdLost = s.status.cmdLost ∧ t.platform = s.platform ∧
      t.reply = s.reply ∧ t.draws = s.draws ∧ t.rst = s.rst ∧ t.irq = s.irqEn ∧
      ∀ a, unsettled t a = unsettled s a

/-- R170: a command other than NOP that passes its check goes to Busy, and nothing else of the block changes but
STATUS, `L`, taint (and the model's ghost, log 13). -/
def Obligations.CommandStartsTheEngine : Prop :=
  ∀ (i : Instr) (s : State), i ≠ .nop → s.phase = .idle →
    checkCommand i (latchOperands (encode i) s.regs) = .none →
    footprintRefusal s.platform (footprints i (latchOperands (encode i) s.regs)) = none →
    ∃ t, exec i s = .next t ∧ runningAs i t ∧
      t = { s with
            status := { s.status with
              done := false, err := false, errCode := .none, lastOp := opField (encode i) }
            latch := latchOperands (encode i) s.regs
            taint := false
            phase := .busy
            awaited := t.awaited
            unobserved := t.unobserved }

/-- R60, R71, U8, U9: a command that passes its check, with a footprint on the register window or on
non-ordinary memory, is refused at acceptance (log 8). A host memory access through the window is a one-byte
register access (R23; log 10), and one to a device has no behaviour in the spec (log 11): both are refused. -/
def Obligations.AccessesThatAreRefused : Prop :=
  (∀ (i : Instr) (s : State) (a : Nat), i ≠ .nop → s.phase = .idle →
    checkCommand i (latchOperands (encode i) s.regs) = .none →
    a ∈ footprintAddresses (footprints i (latchOperands (encode i) s.regs)) →
    onRegisterWindow s.platform a = true ∨ isDevice s.platform a = true →
    exec i s = .refused .footprintOnRegisterWindow ∨ exec i s = .refused .footprintNotOrdinary) ∧
  ∀ (s : State) (a : Word) (v : Byte) (c : Bool) (rest : List Input),
    (s.inputs = .memRead a c :: rest ∨ s.inputs = .memWrite a v c :: rest) →
    (onRegisterWindow s.platform a.toNat = true → step s = .refused .hostAccessFault) ∧
    (onRegisterWindow s.platform a.toNat = false → isDevice s.platform a.toNat = true →
      step s = .refused .hostDeviceAccess)

/-- R171: a CMD write in Busy, of any word, is dropped; its only effect is CMD_LOST. -/
def Obligations.CmdWriteInBusyIsDropped : Prop :=
  ∀ (s : State) (w : Word) (rest : List Input), cmdWriteNext w rest s → s.phase = .busy →
    step s = .next { s with inputs := rest, status := { s.status with cmdLost := true } }

/-- R175: NOP. In Idle, in every state, it completes at acceptance; a NOP word in Busy is dropped; a word with
OP = 0 and a reserved bit set is no NOP; the worked example. The values of the last two fields, the
model's own ghost, are its reading (log 13, DEDUCED) and not R175's. -/
def Obligations.NopOnlyCompletes : Prop :=
  (∀ s : State, s.phase = .idle → ∃ t, exec .nop s = .next t ∧
    t = { s with
          status := { s.status with done := true, err := false, errCode := .none, lastOp := 0 }
          latch := { op := 0, width := s.regs.dim.extractLsb' 0 16,
                     height := s.regs.dim.extractLsb' 16 16, planes := s.regs.planes }
          taint := false
          awaited := []
          unobserved := footprintAddresses s.awaited ++ s.unobserved } ∧
    t.irq = s.irqEn) ∧
  (∀ (s : State) (rest : List Input), cmdWriteNext 0x0 rest s → s.phase = .busy →
    step s = .next { s with inputs := rest, status := { s.status with cmdLost := true } }) ∧
  (∀ (w : Word) (l : Latched), opField w = 0 → w ≠ 0x0 → check w l = .badCmd) ∧
  ∃ t, Sys2Proof.core.run 2 { State.reset with inputs := [.regWrite 0x00 4 1, .regWrite 0x08 4 0] } = .next t ∧
    statusWord t = 0x00000002 ∧ t.irq = true

/-! ## Completion -/

/-- R110 to R113: where a CSC_FWD runs cleanly, its completion writes LumaF of every pixel and CbF and CrF of
the top-left pixel of every 2×2 block, which exists in odd pictures too; DONE is set and the phase is Idle. -/
def Obligations.ForwardConvertsThePicture : Prop :=
  ∀ s : State, runsCleanly .cscFwd s →
    let l := s.latch
    let p := l.planes
    let px := fun (f : Byte → Byte → Byte → Byte) (row col : Nat) =>
      f (s.mem.read (p.rgbaBase.toNat + row * p.rgbaStride.toNat + 4 * col))
        (s.mem.read (p.rgbaBase.toNat + row * p.rgbaStride.toNat + 4 * col + 1))
        (s.mem.read (p.rgbaBase.toNat + row * p.rgbaStride.toNat + 4 * col + 2))
    ∃ t, exec .cscFwd s = .next t ∧ t.status.done = true ∧ t.status.err = s.status.err ∧ t.phase = .idle ∧
      (∀ row < l.height.toNat, ∀ col < l.width.toNat,
        t.mem.read (p.dstYBase.toNat + row * p.dstYStride.toNat + col) = px lumaF row col) ∧
      (∀ i < (l.height.toNat + 1) / 2, ∀ j < (l.width.toNat + 1) / 2,
        2 * i < l.height.toNat ∧ 2 * j < l.width.toNat ∧
        t.mem.read (p.dstUBase.toNat + i * p.dstUVStride.toNat + j) = px cbF (2 * i) (2 * j) ∧
        t.mem.read (p.dstVBase.toNat + i * p.dstUVStride.toNat + j) = px crF (2 * i) (2 * j))

/-- R130 to R133, R137: where a CSC_INV runs cleanly, its completion writes InvF of every pixel's Y sample and of
the U and V samples of its 2×2 block, which exist in odd pictures too, and 255 as A. -/
def Obligations.InverseConvertsThePicture : Prop :=
  ∀ s : State, runsCleanly .cscInv s →
    let l := s.latch
    let p := l.planes
    let y := fun (row col : Nat) => s.mem.read (p.srcYBase.toNat + row * p.srcYStride.toNat + col)
    let u := fun (row col : Nat) =>
      s.mem.read (p.srcUBase.toNat + row / 2 * p.srcUVStride.toNat + col / 2)
    let v := fun (row col : Nat) =>
      s.mem.read (p.srcVBase.toNat + row / 2 * p.srcUVStride.toNat + col / 2)
    let q := fun (row col : Nat) => p.rgbaBase.toNat + row * p.rgbaStride.toNat + 4 * col
    ∃ t, exec .cscInv s = .next t ∧ t.status.done = true ∧ t.status.err = s.status.err ∧ t.phase = .idle ∧
      ∀ row < l.height.toNat, ∀ col < l.width.toNat,
        row / 2 < (l.height.toNat + 1) / 2 ∧ col / 2 < (l.width.toNat + 1) / 2 ∧
        t.mem.read (q row col) = redF (y row col) (u row col) (v row col) ∧
        t.mem.read (q row col + 1) = greenF (y row col) (u row col) (v row col) ∧
        t.mem.read (q row col + 2) = blueF (y row col) (u row col) (v row col) ∧
        t.mem.read (q row col + 3) = 255

/-- R150 to R153: where a REPACK runs cleanly, each destination byte equals the source byte at the same plane
position: W × H luma samples and CW × CH samples of each of U and V. -/
def Obligations.RepackCopiesEverySample : Prop :=
  ∀ s : State, runsCleanly .repack s →
    let l := s.latch
    let p := l.planes
    ∃ t, exec .repack s = .next t ∧ t.status.done = true ∧ t.status.err = s.status.err ∧ t.phase = .idle ∧
      (∀ row < l.height.toNat, ∀ col < l.width.toNat,
        t.mem.read (p.dstYBase.toNat + row * p.dstYStride.toNat + col) =
          s.mem.read (p.srcYBase.toNat + row * p.srcYStride.toNat + col)) ∧
      (∀ i < (l.height.toNat + 1) / 2, ∀ j < (l.width.toNat + 1) / 2,
        t.mem.read (p.dstUBase.toNat + i * p.dstUVStride.toNat + j) =
          s.mem.read (p.srcUBase.toNat + i * p.srcUVStride.toNat + j) ∧
        t.mem.read (p.dstVBase.toNat + i * p.dstUVStride.toNat + j) =
          s.mem.read (p.srcVBase.toNat + i * p.srcUVStride.toNat + j))

/-- R63, R21, R39, R172: the frame of a completion, for all four commands and every state. Every byte outside
the command's write footprints keeps its value, for NOP every byte; of the block only STATUS's outcome and the
phase change; no configuration register changes. -/
def Obligations.CompletionFrame : Prop :=
  ∀ (i : Instr) (s t : State), s.phase = .busy → exec i s = .next t →
    (∀ a, a ∉ footprintAddresses (writeFootprints i s.latch) → t.mem.read a = s.mem.read a) ∧
    t.phase = .idle ∧ t.regs = s.regs ∧ t.irqEn = s.irqEn ∧ t.latch = s.latch ∧ t.taint = s.taint ∧
    t.status.cmdLost = s.status.cmdLost ∧ t.status.lastOp = s.status.lastOp ∧
    t.rst = s.rst ∧ t.platform = s.platform ∧ t.inputs = s.inputs ∧ t.reply = s.reply ∧
    t.awaited = s.awaited ∧ t.unobserved = s.unobserved

/-- R170, R182: the frame of an acceptance, for all four commands: no byte of memory, no configuration register
and no flag but DONE, ERR, ERRCODE and LAST_OP changes. -/
def Obligations.AcceptanceFrame : Prop :=
  ∀ (i : Instr) (s t : State), s.phase = .idle → exec i s = .next t →
    t.mem = s.mem ∧ t.regs = s.regs ∧ t.irqEn = s.irqEn ∧ t.status.cmdLost = s.status.cmdLost ∧
    t.status.lastOp = opField (encode i) ∧ t.taint = false ∧ t.rst = s.rst ∧ t.platform = s.platform ∧
    t.inputs = s.inputs ∧ t.reply = s.reply ∧ t.draws = s.draws

/-- R63, R64: a command depends on no byte outside its read footprints. Two states that differ only in memory
outside `RFP` give every destination byte whose writes are accepted the same value: source padding is never
read. For bytes that are any value (bus error, overlap, taint) the equality is the model's own: its free values
depend on the draw and the address alone (log 4, DESIGN CHOICE). -/
def Obligations.OnlySourceBytesMatter : Prop :=
  ∀ (i : Instr) (s t t' : State) (m : Memory), s.phase = .busy →
    (∀ a ∈ footprintAddresses (readFootprints i s.latch), m.read a = s.mem.read a) →
    exec i s = .next t → exec i { s with mem := m } = .next t' →
    ∀ a ∈ footprintAddresses (writeFootprints i s.latch), busOK s.platform a .write = true →
      t'.mem.read a = t.mem.read a

/-- R114: no output of CSC_FWD depends on an A byte, or on any other byte but R, G and B, yet an A byte that cannot
be read makes the command a bus error. For bytes that are any value (bus error, overlap, taint) the equality is the
model's own: its free values depend on the draw and the address alone (log 4, DESIGN CHOICE). -/
def Obligations.AlphaIsReadAndIgnored : Prop :=
  (∀ (s t t' : State) (m : Memory), s.phase = .busy →
    (∀ row < s.latch.H, ∀ col < s.latch.W, ∀ ch < 3,
      m.read (s.latch.rgbaAt row col + ch) = s.mem.read (s.latch.rgbaAt row col + ch)) →
    exec .cscFwd s = .next t → exec .cscFwd { s with mem := m } = .next t' →
    ∀ a ∈ footprintAddresses (writeFootprints .cscFwd s.latch), busOK s.platform a .write = true →
      t'.mem.read a = t.mem.read a) ∧
  ∀ (s : State) (row col : Nat), runningAs .cscFwd s → row < s.latch.H → col < s.latch.W →
    busOK s.platform (s.latch.rgbaAt row col + 3) .read = false →
    ∃ t, exec .cscFwd s = .next t ∧ t.status.err = true ∧ t.status.errCode = .bus

/-- R184: a bus error. ERR with code BUS, the phase back to Idle; every destination byte at which writes are
accepted holds any value (a free value, log 4), every other byte its old one. -/
def Obligations.BusErrorIsImprecise : Prop :=
  ∀ (i : Instr) (s : State), runningAs i s →
    (∃ a ∈ footprintAddresses (readFootprints i s.latch), busOK s.platform a .read = false) ∨
      (∃ a ∈ footprintAddresses (writeFootprints i s.latch), busOK s.platform a .write = false) →
    ∃ t, exec i s = .next t ∧ t.status.err = true ∧ t.status.errCode = .bus ∧ t.status.errCode.code = 5 ∧
      t.status.done = s.status.done ∧ t.phase = .idle ∧
      (∀ a ∈ footprintAddresses (writeFootprints i s.latch), busOK s.platform a .write = true →
        t.mem.read a = Config.anyByte s.draws a) ∧
      ∀ a, a ∉ footprintAddresses (writeFootprints i s.latch) ∨ busOK s.platform a .write = false →
        t.mem.read a = s.mem.read a

/-- R79: what overlapping is, and that an in-place REPACK overlaps. -/
def Obligations.OverlapIsASharedByte : Prop :=
  (∀ (i : Instr) (l : Latched), overlaps i l = true ↔
    (∃ a ∈ footprintAddresses (writeFootprints i l), a ∈ footprintAddresses (readFootprints i l)) ∨
    ∃ f g, List.Sublist [f, g] (writeFootprints i l) ∧ ∃ a ∈ f.addresses, a ∈ g.addresses) ∧
  ∀ l : Latched, l.width ≠ 0 → l.height ≠ 0 →
    l.planes.srcYBase = l.planes.dstYBase → l.planes.srcUBase = l.planes.dstUBase →
    l.planes.srcVBase = l.planes.dstVBase → l.planes.srcYStride = l.planes.dstYStride →
    l.planes.srcUVStride = l.planes.dstUVStride → overlaps .repack l = true

/-- R218, R79, R185: an overlapping or tainted command is not rejected and is no error: it completes with DONE and
its whole destination holds any value (a free value, log 4). -/
def Obligations.OverlapOrTaintGivesAnyValue : Prop :=
  ∀ (i : Instr) (s : State), runningAs i s → busAnswersOK i s → overlaps i s.latch = true ∨ s.taint = true →
    ∃ t, exec i s = .next t ∧ t.status.done = true ∧ t.status.err = s.status.err ∧ t.phase = .idle ∧
      (∀ a ∈ footprintAddresses (writeFootprints i s.latch), t.mem.read a = Config.anyByte s.draws a) ∧
      ∀ a, a ∉ footprintAddresses (writeFootprints i s.latch) → t.mem.read a = s.mem.read a

/-- R172: where nothing overlaps, the order of a command's byte writes does not matter: any reordering of them
leaves the same memory contents. -/
def Obligations.WriteOrderDoesNotMatter : Prop :=
  ∀ (i : Instr) (s : State) (cells : List Host.Cell), runsCleanly i s →
    cells.Perm (performCells i s.latch s.mem.read) →
    ∃ t, exec i s = .next t ∧ ∀ a, t.mem.read a = (s.mem.writeAll cells).read a

/-- R44: no command reads a flag. With other CTRL and STATUS contents a command does the same to memory, the
phase and the latched command, and stops in the same cases. For bytes that are any value (bus error, overlap, taint)
the equal memory is the model's own (log 4, DESIGN CHOICE). -/
def Obligations.NoCommandReadsAFlag : Prop :=
  ∀ (i : Instr) (s t : State) (st : Status) (ie : Bool), exec i s = .next t →
    ∃ u, exec i { s with status := st, irqEn := ie } = .next u ∧
      u.mem = t.mem ∧ u.phase = t.phase ∧ u.latch = t.latch ∧ u.regs = t.regs ∧ u.draws = t.draws

/-- R177: a command has ended at its acceptance if it is rejected or a NOP, and else at its completion. A run has
ended where the program has performed its last transaction and the phase is Idle: nothing the host does then changes
the machine; with the phase Busy it has not ended, and the completion step ends it. A run given as an input list stays
ended too. That a memory access is a transaction is the model's reading (log 24). -/
def Obligations.CommandEnds : Prop :=
  (∀ (i : Instr) (s t : State), exec i s = .next t →
    (s.phase = .busy → commandEnded t) ∧
    (s.phase = .idle → (commandEnded t ∧ (i = .nop ∨ t.status.err = true)) ∨
      (t.phase = .busy ∧ i ≠ .nop ∧ t.status.done = false ∧ t.status.err = false))) ∧
  (∀ (p : List HostOp) (y : System) (k : Nat), programRunEnded p y →
    ∃ y', runTurns p (List.replicate k .host) y = .next y' ∧ y'.machine = y.machine ∧ programRunEnded p y') ∧
  (∀ (i : Instr) (p : List HostOp) (y : System), transactionsDone p y.host → runningAs i y.machine →
    ¬programRunEnded p y ∧ ∃ y', runTurn p y (.outside .engine) = .next y' ∧ programRunEnded p y') ∧
  ∀ s : State, runEnded s → ∃ t, step s = .next t ∧ runEnded t ∧ t.mem = s.mem

/-! ## Registers and flags -/

/-- R26, R28: the fields of STATUS as a read returns them. -/
def Obligations.StatusFieldsReadBack : Prop :=
  ∀ s : State,
    (statusWord s).getLsbD 0 = decide (s.phase = .busy) ∧ (statusWord s).getLsbD 1 = s.status.done ∧
    (statusWord s).getLsbD 2 = s.status.err ∧ (statusWord s).getLsbD 3 = s.status.cmdLost ∧
    (statusWord s).extractLsb' 4 4 = 0 ∧ (statusWord s).extractLsb' 8 4 = s.status.errCode.code ∧
    (statusWord s).extractLsb' 12 4 = s.status.lastOp ∧ (statusWord s).extractLsb' 16 16 = 0 ∧
    (s.status.errCode.code).toNat ≤ 5

/-- R27: a write of STATUS, in either phase. -/
def Obligations.StatusWriteOneToClear : Prop :=
  ∀ (s : State) (v : Word) (rest : List Input), s.rst = false → s.inputs = .regWrite 0x04 4 v :: rest →
    ∃ t, step s = .next t ∧ t = { s with inputs := rest, status := t.status } ∧
      t.status.done = (if v.getLsbD 1 then false else s.status.done) ∧
      t.status.err = (if v.getLsbD 2 then false else s.status.err) ∧
      t.status.errCode = (if v.getLsbD 2 then .none else s.status.errCode) ∧
      t.status.cmdLost = (if v.getLsbD 3 then false else s.status.cmdLost) ∧
      t.status.lastOp = s.status.lastOp

/-- R25: a write of CTRL, in either phase, stores IRQ_EN alone, and a read returns it with zeros above. -/
def Obligations.CtrlStoresOnlyIrqEn : Prop :=
  (∀ (s : State) (v : Word) (rest : List Input), s.rst = false → s.inputs = .regWrite 0x00 4 v :: rest →
    step s = .next { s with inputs := rest, irqEn := v.getLsbD 0 }) ∧
  ∀ s : State, readWord 0x00 s = if s.irqEn then 1 else 0

/-- R39, R22: a write of a configuration register, in either phase, is read back at once, changes no other
register and nothing else, and does not change what the running command does. Where its destination is any value
(bus error, overlap, taint) that equality is the model's own (log 4, DESIGN CHOICE). -/
def Obligations.ConfigurationWrites : Prop :=
  ∀ (s : State) (r : Reg) (v : Word) (rest : List Input), r ≠ .ctrl → r ≠ .status → r ≠ .cmd →
    s.rst = false → s.inputs = .regWrite (regOffset r) 4 v :: rest →
    ∃ t, step s = .next t ∧ t = { s with inputs := rest, regs := t.regs } ∧
      readWord (regOffset r) t = v ∧
      (∀ r', r' ≠ r → readWord (regOffset r') t = readWord (regOffset r') s) ∧
      ∀ i u, s.phase = .busy → exec i { s with inputs := rest } = .next u →
        exec i t = .next { u with regs := t.regs }

/-- R24: a reserved offset reads 0 and ignores a write; a reserved field of CTRL or STATUS reads 0, and a write
that differs only in reserved or read-only bits does the same. -/
def Obligations.ReservedSpaceReadsZero : Prop :=
  (∀ (s : State) (o : Byte) (rest : List Input), 0x40 ≤ o.toNat → o.toNat % 4 = 0 →
    s.inputs = .regRead o 4 :: rest → step s = .next { s with inputs := rest, reply := .word 0 }) ∧
  (∀ (s : State) (o : Byte) (v : Word) (rest : List Input), 0x40 ≤ o.toNat → o.toNat % 4 = 0 →
    s.inputs = .regWrite o 4 v :: rest → step s = .next { s with inputs := rest }) ∧
  (∀ s : State, (ctrlWord s).extractLsb' 1 31 = 0 ∧ (statusWord s).extractLsb' 4 4 = 0 ∧
    (statusWord s).extractLsb' 16 16 = 0) ∧
  (∀ (s : State) (v v' : Word), v.getLsbD 0 = v'.getLsbD 0 → writeCtrl v s = writeCtrl v' s) ∧
  ∀ (s : State) (v v' : Word), v.extractLsb' 1 3 = v'.extractLsb' 1 3 → writeStatus v s = writeStatus v' s

/-- R23, R34: an access of a size other than 4, or at an offset not a multiple of 4, is refused; a defined read has
no side effect on the block; CMD reads 0; a register word is little-endian. (The reply, and the ghost of log 13, are the
model's own.) -/
def Obligations.RegisterAccessRules : Prop :=
  (∀ (s : State) (o : Byte) (n : Nat) (v : Word) (rest : List Input), n ≠ 4 ∨ o.toNat % 4 ≠ 0 →
    (s.inputs = .regRead o n :: rest ∨ s.inputs = .regWrite o n v :: rest) →
    step s = .refused .hostAccessFault) ∧
  (∀ (s : State) (o : Byte) (rest : List Input), o.toNat % 4 = 0 → s.inputs = .regRead o 4 :: rest →
    ∃ t, step s = .next t ∧
      t = { s with inputs := rest, reply := .word (readWord o s), awaited := t.awaited, unobserved := t.unobserved }) ∧
  (∀ s : State, readWord 0x08 s = 0) ∧
  ∀ w : Word, (bytesOfWord w)[0]? = some (w.extractLsb' 0 8) ∧ (bytesOfWord w)[3]? = some (w.extractLsb' 24 8)

/-- R186: `irq`, level-sensitive: what drives it, that enabling it with an outcome pending raises it at once,
and that acknowledging, the next start of a command, and reset lower it. -/
def Obligations.IrqFollowsTheOutcome : Prop :=
  (∀ s : State, s.irq = true ↔ s.irqEn = true ∧ (s.status.done = true ∨ s.status.err = true)) ∧
  (∀ s : State, s.status.done = true ∨ s.status.err = true → (writeCtrl 1 s).irq = true) ∧
  (∀ s : State, (writeStatus 0x0000000E s).irq = false) ∧
  (∀ (i : Instr) (s t : State), exec i s = .next t → t.phase = .busy → s.phase = .idle → t.irq = false) ∧
  ∀ s t : State, assertReset s = .next t → t.irq = false

/-- R28: BUSY is set only by the acceptance of a command that checks out, and cleared only by completion or
reset. -/
def Obligations.BusyChangesOnlyBy : Prop :=
  ∀ s t : State, step s = .next t →
    (s.phase = .idle → t.phase = .busy → ∃ w rest, cmdWriteNext w rest s ∧
      check w (latchOperands w s.regs) = .none ∧ opField w ≠ 0) ∧
    (s.phase = .busy → t.phase = .idle →
      engineNext s ∨ s.inputs.head? = some .rstAssert)

/-- R29: DONE is set only by a completion without error or the acceptance of a NOP, and cleared only by a W1C
write, an acceptance, or reset. -/
def Obligations.DoneChangesOnlyBy : Prop :=
  ∀ s t : State, step s = .next t →
    (s.status.done = false → t.status.done = true →
      (s.phase = .busy ∧ engineNext s ∧ t.phase = .idle ∧ t.status.err = s.status.err) ∨
      (s.phase = .idle ∧ ∃ rest, cmdWriteNext 0x0 rest s)) ∧
    (s.status.done = true → t.status.done = false →
      (∃ v rest, s.inputs = .regWrite 0x04 4 v :: rest ∧ v.getLsbD 1 = true) ∨
      (s.phase = .idle ∧ ∃ w rest, cmdWriteNext w rest s) ∨ s.inputs.head? = some .rstAssert)

/-- R30: ERR is set only by a rejection or a bus error, with ERRCODE in the same step, and cleared only by a W1C
write, which zeroes ERRCODE, an acceptance, or reset. -/
def Obligations.ErrChangesOnlyBy : Prop :=
  ∀ s t : State, step s = .next t →
    (s.status.err = false → t.status.err = true →
      (s.phase = .busy ∧ engineNext s ∧ t.status.errCode = .bus) ∨
      (s.phase = .idle ∧ ∃ w rest, cmdWriteNext w rest s ∧
        check w (latchOperands w s.regs) ≠ .none ∧
        t.status.errCode = check w (latchOperands w s.regs))) ∧
    (s.status.err = true → t.status.err = false → t.status.errCode = .none ∧
      ((∃ v rest, s.inputs = .regWrite 0x04 4 v :: rest ∧ v.getLsbD 2 = true) ∨
       (s.phase = .idle ∧ ∃ w rest, cmdWriteNext w rest s) ∨ s.inputs.head? = some .rstAssert))

/-- R31: CMD_LOST is set only by a CMD write in Busy, is sticky, and is cleared only by a W1C write or reset; it
does not drive `irq`. -/
def Obligations.CmdLostIsSticky : Prop :=
  (∀ s t : State, step s = .next t →
    (s.status.cmdLost = false → t.status.cmdLost = true →
      s.phase = .busy ∧ ∃ w rest, cmdWriteNext w rest s) ∧
    (s.status.cmdLost = true → t.status.cmdLost = false →
      (∃ v rest, s.inputs = .regWrite 0x04 4 v :: rest ∧ v.getLsbD 3 = true) ∨
      s.inputs.head? = some .rstAssert)) ∧
  ∀ s : State, { s with status := { s.status with cmdLost := true } }.irq = s.irq

/-- R33: LAST_OP changes only at an accepted CMD write, whose OP it takes even where the word is rejected, or at
reset. -/
def Obligations.LastOpChangesOnlyBy : Prop :=
  ∀ s t : State, step s = .next t → t.status.lastOp ≠ s.status.lastOp →
    (s.phase = .idle ∧ ∃ w rest, cmdWriteNext w rest s ∧ t.status.lastOp = opField w) ∨
    (s.inputs.head? = some .rstAssert ∧ t.status.lastOp = 0)

/-- R21: no command writes a configuration register: only a host write at an offset of the window, or reset,
changes one. -/
def Obligations.RegistersChangeOnlyByTheHost : Prop :=
  ∀ s t : State, step s = .next t → t.regs ≠ s.regs →
    (∃ r v rest, s.inputs = .regWrite (regOffset r) 4 v :: rest ∧ r ≠ .ctrl ∧ r ≠ .status ∧ r ≠ .cmd) ∨
    s.inputs.head? = some .rstAssert

/-- R40, R41, R63, R195, R212, R215: memory changes only by the engine's turn in Busy, a host memory write, or reset
in Busy; `L` only by an acceptance or reset; taint is set only by a host write to a byte of the running command's
footprints and cleared only by an acceptance or reset. The engine's turn in Idle changes nothing. (Reset's effect on
`L` is log 6; that an empty input list is the engine's turn is log 1.) -/
def Obligations.MemoryLatchAndTaintChangeOnlyBy : Prop :=
  (∀ s t : State, step s = .next t →
    (t.mem ≠ s.mem → (s.phase = .busy ∧ engineNext s) ∨ (∃ a v c rest, s.inputs = .memWrite a v c :: rest) ∨
      (s.phase = .busy ∧ s.inputs.head? = some .rstAssert)) ∧
    (t.latch ≠ s.latch →
      (s.phase = .idle ∧ ∃ w rest, cmdWriteNext w rest s) ∨ s.inputs.head? = some .rstAssert) ∧
    (s.taint = false → t.taint = true → ∃ (i : Instr) (a : Word) (v : Byte) (c : Bool) (rest : List Input),
      s.inputs = .memWrite a v c :: rest ∧ runningCommand s = some i ∧
      a.toNat ∈ footprintAddresses (footprints i s.latch)) ∧
    (s.taint = true → t.taint = false →
      (s.phase = .idle ∧ ∃ w rest, cmdWriteNext w rest s) ∨ s.inputs.head? = some .rstAssert)) ∧
  ∀ s : State, s.phase = .idle → engineNext s → step s = .next { s with inputs := s.inputs.tail }

/-! ## Host and memory -/

/-- R41, R43, R215, R219: a host write on a coherent path lands, in either phase: that byte alone changes, and of the block
only taint, which is set exactly where the byte is in the running command's footprints. At the completion of a command
so tainted every destination byte is any value (a free value, log 4), and a written byte outside `WFP` keeps the
host's value. That a host write lands whatever `BusOK` says is the model's reading (log 16, DEDUCED, unsafe), and so is
what a coherent path is (log 12, DEDUCED). -/
def Obligations.HostWriteTaintsTheCommand : Prop :=
  (∀ (s : State) (a : Word) (v : Byte) (c : Bool) (rest : List Input), s.inputs = .memWrite a v c :: rest →
    hostMemoryRefusal s.platform a.toNat = none → pathCoherent s.platform c = true →
    ∃ t, step s = .next t ∧ t = { s with inputs := rest, mem := t.mem, taint := t.taint } ∧
      t.mem.read a.toNat = v ∧ (∀ b, b ≠ a.toNat → t.mem.read b = s.mem.read b) ∧
      (t.taint = true ↔ s.taint = true ∨
        ∃ i, runningCommand s = some i ∧ a.toNat ∈ footprintAddresses (footprints i s.latch))) ∧
  ∀ (i : Instr) (s : State) (a : Word) (v : Byte) (rest : List Input), runningAs i s →
    s.inputs = .memWrite a v true :: rest → hostMemoryRefusal s.platform a.toNat = none →
    a.toNat ∈ footprintAddresses (footprints i s.latch) →
    ∃ t, step s = .next t ∧ t.taint = true ∧ t.mem.read a.toNat = v ∧
      (∀ b, b ≠ a.toNat → t.mem.read b = s.mem.read b) ∧
      (busAnswersOK i s → ∃ u, exec i t = .next u ∧ u.status.done = true ∧
        (∀ b ∈ footprintAddresses (writeFootprints i s.latch), u.mem.read b = Config.anyByte t.draws b) ∧
        (a.toNat ∉ footprintAddresses (writeFootprints i s.latch) → u.mem.read a.toNat = v))

/-- R74: a host read in Busy of a byte of the running command's `WFP` is any value (a free value, log 4), of any
other byte it is memory's; it changes neither memory nor the command. -/
def Obligations.HostReadInBusy : Prop :=
  ∀ (i : Instr) (s : State) (a : Word) (rest : List Input), runningAs i s →
    s.inputs = .memRead a true :: rest → hostMemoryRefusal s.platform a.toNat = none →
    ∃ t, step s = .next t ∧ t = { s with inputs := rest, reply := t.reply, draws := t.draws } ∧
      (a.toNat ∈ footprintAddresses (writeFootprints i s.latch) →
        t.reply = .byte (Config.anyByte s.draws a.toNat) ∧ t.draws = s.draws + 1) ∧
      (a.toNat ∉ footprintAddresses (writeFootprints i s.latch) →
        t.reply = .byte (s.mem.read a.toNat) ∧ t.draws = s.draws)

/-- R73, R217: completion, its observation by a STATUS read, then a host read of a destination byte returns what the
command left there; without the observation the read is any value. In Idle a read of a byte whose command was observed
returns memory and changes nothing else; one of a byte whose command was not is any value, and stays so past the ERR
of a later rejected word and past a reset. That the model's ghost decides this is its reading (log 13), and that
`BusOK` does not govern a host read is log 16, what a coherent path is log 12. -/
def Obligations.ResultsAreReadAfterObservation : Prop :=
  (∀ (i : Instr) (s : State) (a : Word), runningAs i s →
    hostMemoryRefusal s.platform a.toNat = none →
    a.toNat ∈ footprintAddresses (writeFootprints i s.latch) →
    (∃ t u, exec i s = .next t ∧
      Sys2Proof.core.run 3 { s with inputs := [.engine, .regRead 0x04 4, .memRead a true] } = .next u ∧
      u.reply = .byte (t.mem.read a.toNat)) ∧
    ∃ t u, exec i s = .next t ∧
      Sys2Proof.core.run 2 { s with inputs := [.engine, .memRead a true] } = .next u ∧
      u.reply = .byte (Config.anyByte t.draws a.toNat)) ∧
  (∀ (s : State) (a : Word) (c : Bool) (rest : List Input), s.phase = .idle →
    s.inputs = .memRead a c :: rest → hostMemoryRefusal s.platform a.toNat = none →
    pathCoherent s.platform c = true →
    (a.toNat ∉ footprintAddresses s.awaited → a.toNat ∉ s.unobserved →
      step s = .next { s with inputs := rest, reply := .byte (s.mem.read a.toNat) }) ∧
    (a.toNat ∈ footprintAddresses s.awaited ∨ a.toNat ∈ s.unobserved →
      step s = .next { s with inputs := rest, reply := .byte (Config.anyByte s.draws a.toNat),
                              draws := s.draws + 1 })) ∧
  ∀ (s : State) (a : Word) (e : Input), s.phase = .idle → hostMemoryRefusal s.platform a.toNat = none →
    a.toNat ∈ footprintAddresses s.awaited ∨ a.toNat ∈ s.unobserved →
    (s.rst = false ∧ ∃ w, e = cmdInput w ∧ check w (latchOperands w s.regs) ≠ .none) ∨ e = .rstAssert →
    ∃ u, Sys2Proof.core.run 3 { s with inputs := [e, .regRead 0x04 4, .memRead a true] } = .next u ∧
      u.reply = .byte (Config.anyByte s.draws a.toNat)

/-- R77, U14: where `HOST_COHERENT` is false, a host read off a coherent path is any value (a free value,
log 12), and a host write off one leaves any value at that byte alone; of the block only taint changes, which is set
exactly where the byte is in the running command's footprints (R215). -/
def Obligations.IncoherentAccessIsAnyValue : Prop :=
  ∀ (s : State) (a : Word) (v : Byte) (rest : List Input), s.platform.hostCoherent = false →
    hostMemoryRefusal s.platform a.toNat = none →
    (s.inputs = .memRead a false :: rest →
      step s = .next { s with inputs := rest, reply := .byte (Config.anyByte s.draws a.toNat),
                              draws := s.draws + 1 }) ∧
    (s.inputs = .memWrite a v false :: rest →
      ∃ t, step s = .next t ∧
        t = { s with inputs := rest, mem := t.mem, taint := t.taint, draws := s.draws + 1 } ∧
        t.mem.read a.toNat = Config.anyByte s.draws a.toNat ∧
        (∀ b, b ≠ a.toNat → t.mem.read b = s.mem.read b) ∧
        (t.taint = true ↔ s.taint = true ∨
          ∃ i, runningCommand s = some i ∧ a.toNat ∈ footprintAddresses (footprints i s.latch)))

/-- R60: every listed address stays below 2^32. Beside it, every step keeps the rising order of the list, which is the
model's own form of memory (log 5, DESIGN CHOICE). -/
def Obligations.MemoryStaysCanonical : Prop :=
  ∀ s t : State, s.mem.wf → step s = .next t → t.mem.wf

/-! ## Reset -/

/-- R210, R213: the state right after reset, and that every register then reads 0. (The rest of State.reset is the
model's own, logs 1 to 18.) -/
def Obligations.ResetStateIsTheSpecs : Prop :=
  State.reset.irqEn = false ∧ State.reset.status = Status.reset ∧ State.reset.regs = ConfigRegs.reset ∧
  State.reset.phase = .idle ∧ State.reset.taint = false ∧ State.reset.irq = false ∧
  ∀ o : Byte, readWord o State.reset = 0

/-- R210, R211, R212: `rst` asserted. In Idle memory is untouched; in Busy the abandoned command's destination
holds any value (a free value, log 4) and every other byte is unchanged; every piece of block state takes its
reset value and no outcome is signalled. -/
def Obligations.ResetAbandonsTheCommand : Prop :=
  ∀ (s : State) (rest : List Input), s.inputs = .rstAssert :: rest → runningLegal s →
    ∃ t, step s = .next t ∧ t.rst = true ∧ blockAtReset t ∧ t.irq = false ∧ t.platform = s.platform ∧
      t.inputs = rest ∧
      (s.phase = .idle → t.mem = s.mem) ∧
      ∀ i, runningCommand s = some i →
        (∀ a ∈ footprintAddresses (writeFootprints i s.latch), t.mem.read a = Config.anyByte s.draws a) ∧
        ∀ a, a ∉ footprintAddresses (writeFootprints i s.latch) → t.mem.read a = s.mem.read a

/-- R213: a CSC_FWD, CSC_INV or REPACK straight after reset is rejected with BAD_DIM, since DIM = 0. -/
def Obligations.CommandsAfterResetAreBadDim : Prop :=
  ∀ i : Instr, i ≠ .nop → ∃ t, exec i State.reset = .next t ∧ t.status.err = true ∧
    t.status.errCode = .badDim ∧ t.phase = .idle ∧ t.mem = []

/-! ## Invariants of the machine -/

/-- R45: the block's invariants, kept by every step from every state that has them; `irq` is R45 (4). -/
def Obligations.StatusStaysConsistent : Prop :=
  ∀ s t : State, statusConsistent s → step s = .next t →
    statusConsistent t ∧ t.irq = (t.irqEn && (t.status.done || t.status.err))

/-- R170, R172: what runs is an accepted command that passed its check, at every step. That its footprints are
ordinary memory is the model's refusal at acceptance (log 8), and that its outcome is the awaited one is the model's
ghost (log 13). -/
def Obligations.RunningCommandStaysLegal : Prop :=
  ∀ s t : State, runningLegal s → step s = .next t → runningLegal t

/-- R210: while `rst` stays asserted the block keeps its reset state, whatever the host does. -/
def Obligations.ResetIsHeld : Prop :=
  ∀ s t : State, resetHeld s → step s = .next t → resetHeld t

/-- The invariants hold at State.reset, beside the canonical memory. -/
def Obligations.ResetMeetsTheInvariants : Prop := Inv State.reset

/-- 93_implementation_defined.md, Treatments: no behaviour of the block traps or hangs: from a state whose
running command is legal no step faults. -/
def Obligations.NoStepFaults : Prop :=
  ∀ (s : State) (f : Fault), runningLegal s → step s ≠ .fault f

/-- R61, R221: the platform's parameters are constant over a run. -/
def Obligations.PlatformIsConstant : Prop :=
  ∀ s t : State, step s = .next t → t.platform = s.platform

/-- R173: a running command ends once the pending inputs are used up, at the latest by the engine's own turn
after them, unless a refused host access ends the run first. -/
def Obligations.BusyCommandsComplete : Prop :=
  ∀ s : State, runningLegal s → s.phase = .busy →
    ∃ k ≤ s.inputs.length + 1,
      match Sys2Proof.core.run k s with
      | .next t => t.phase = .idle
      | .fault _ => False
      | .refused _ => True

/-! ## Pixel arithmetic -/

/-- R111, R112, R115: the forward functions by their formulas, floor shift and saturation; the sums and results
lie in the ranges given, so the clamp never changes a value. -/
def Obligations.ForwardFormulasAndRanges : Prop :=
  ∀ r g b : Byte,
    let R : Int := r.toNat
    let G : Int := g.toNat
    let B : Int := b.toNat
    let sY := 66 * R + 129 * G + 25 * B + 128
    let sU := -38 * R - 74 * G + 112 * B + 128
    let sV := 112 * R - 94 * G - 18 * B + 128
    ((lumaF r g b).toNat : Int) = max 0 (min 255 (sY.fdiv 256 + 16)) ∧
    ((cbF r g b).toNat : Int) = max 0 (min 255 (sU.fdiv 256 + 128)) ∧
    ((crF r g b).toNat : Int) = max 0 (min 255 (sV.fdiv 256 + 128)) ∧
    128 ≤ sY ∧ sY ≤ 56228 ∧ -28432 ≤ sU ∧ sU ≤ 28688 ∧ -28432 ≤ sV ∧ sV ≤ 28688 ∧
    16 ≤ (lumaF r g b).toNat ∧ (lumaF r g b).toNat ≤ 235 ∧
    16 ≤ (cbF r g b).toNat ∧ (cbF r g b).toNat ≤ 240 ∧ 16 ≤ (crF r g b).toNat ∧ (crF r g b).toNat ≤ 240 ∧
    ((lumaF r g b).toNat : Int) = sY.fdiv 256 + 16 ∧ ((cbF r g b).toNat : Int) = sU.fdiv 256 + 128 ∧
    ((crF r g b).toNat : Int) = sV.fdiv 256 + 128

/-- R131, R134, R135: the inverse functions by their formulas; the sums lie in the ranges given; a shift that
truncates toward zero would give the same bytes. -/
def Obligations.InverseFormulasAndRanges : Prop :=
  ∀ y u v : Byte,
    let c : Int := 298 * (y.toNat - 16)
    let d : Int := u.toNat - 128
    let e : Int := v.toNat - 128
    let sR := c + 409 * e + 128
    let sG := c - 100 * d - 208 * e + 128
    let sB := c + 516 * d + 128
    ((redF y u v).toNat : Int) = max 0 (min 255 (sR.fdiv 256)) ∧
    ((greenF y u v).toNat : Int) = max 0 (min 255 (sG.fdiv 256)) ∧
    ((blueF y u v).toNat : Int) = max 0 (min 255 (sB.fdiv 256)) ∧
    -56992 ≤ sR ∧ sR ≤ 123293 ∧ -43756 ≤ sG ∧ sG ≤ 110774 ∧ -70688 ≤ sB ∧ sB ≤ 136882 ∧
    ((redF y u v).toNat : Int) = max 0 (min 255 (sR.tdiv 256)) ∧
    ((greenF y u v).toNat : Int) = max 0 (min 255 (sG.tdiv 256)) ∧
    ((blueF y u v).toNat : Int) = max 0 (min 255 (sB.tdiv 256))

/-- R117, R136, R42: the table-accelerated variants give the same bytes. -/
def Obligations.TablesAgreeWithTheFormulas : Prop :=
  (∀ r g b : Byte, lumaFByTable r g b = lumaF r g b ∧ cbFByTable r g b = cbF r g b ∧
    crFByTable r g b = crF r g b) ∧
  ∀ y u v : Byte, redFByTable y u v = redF y u v ∧ greenFByTable y u v = greenF y u v ∧
    blueFByTable y u v = blueF y u v

/-- R118, R112, R138: grey pixels give U = V = 128 and white gives Y = 235; a negative chroma sum is rounded down,
so (4,0,0) gives U = 127; the luma round trip is not exact, by the two counterexamples. -/
def Obligations.GreyPixelsAndTheRoundTrip : Prop :=
  (∀ g : Byte, cbF g g g = 128 ∧ crF g g g = 128) ∧ lumaF 255 255 255 = 235 ∧ cbF 4 0 0 = 127 ∧
  lumaF 223 223 223 = 208 ∧ redF 208 128 128 = 224 ∧ greenF 208 128 128 = 224 ∧ blueF 208 128 128 = 224 ∧
  lumaF 224 224 224 = 209 ∧
  lumaF 0 165 235 = 122 ∧ cbF 0 165 235 = 183 ∧ crF 0 165 235 = 51 ∧
  redF 122 183 51 = 0 ∧ greenF 122 183 51 = 164 ∧ blueF 122 183 51 = 234 ∧ lumaF 0 164 234 = 121

/-! ## Host notation -/

/-- R99, R97: the register transactions of the pseudo-instructions; WAIT goes on exactly while the STATUS word read
has BUSY set, or neither DONE nor ERR. -/
def Obligations.PseudoInstructionsExpand : Prop :=
  writeTransactions (setDim 4 2) = [(0x0C, 0x00020004)] ∧
  writeTransactions ackOp = [(0x04, 0x0000000E)] ∧
  writeTransactions (startOp .cscInv) = [(0x08, 0x00000002)] ∧
  writeTransactions (setSrcI420 0x1000 4 2) =
    [(0x18, 0x00001000), (0x1C, 0x00001008), (0x20, 0x0000100A), (0x24, 0x00000004), (0x28, 0x00000002)] ∧
  ∀ (w : Word) (name : String) (names : List ((String × Nat) × Word)),
    (waiting name).holds (((name, 0), w) :: names) = true ↔
      w.getLsbD 0 = true ∨ (w.getLsbD 1 = false ∧ w.getLsbD 2 = false)

/-- R98, R151, C3: the tight layout has `W*H + 2*CW*CH` bytes, which is `W*H*3/2` exactly for even W and H. -/
def Obligations.TightLayoutSize : Prop :=
  ∀ W H : Nat, 0 < W → 0 < H →
    (tightSize W H = W * H * 3 / 2 ↔ W % 2 = 0 ∧ H % 2 = 0) ∧
    tightSize W H = W * H + 2 * (((W + 1) / 2) * ((H + 1) / 2))
end

