-- ==== Sys2Proof/Laws/Operands.lean ====
section
/-! SUPPORT. Footprints: membership, enumeration and range (20_memory.md R62, R69). -/

namespace Sys2Proof.Machine

/-- The set of 20_memory.md R62. -/
theorem mem_addresses (f : Footprint) (a : Nat) :
    a ∈ f.addresses ↔ ∃ r < f.rows, ∃ t < f.rowBytes, a = f.base + r * f.stride + t := by
  simp only [Footprint.addresses, List.mem_flatMap, List.mem_range, List.mem_map]
  constructor
  · rintro ⟨r, hr, t, ht, rfl⟩; exact ⟨r, hr, t, ht, rfl⟩
  · rintro ⟨r, hr, t, ht, rfl⟩; exact ⟨r, hr, t, ht, rfl⟩

/-- Membership and enumeration agree. -/
theorem contains_iff (f : Footprint) (a : Nat) : f.contains a = true ↔ a ∈ f.addresses := by
  simp only [mem_addresses, Footprint.contains, List.any_eq_true, List.mem_range, Bool.and_eq_true,
    decide_eq_true_eq]
  constructor
  · rintro ⟨r, hr, h1, h2⟩
    exact ⟨r, hr, a - (f.base + r * f.stride), by omega, by omega⟩
  · rintro ⟨r, hr, t, ht, rfl⟩
    exact ⟨r, hr, by omega, by omega⟩

theorem mem_footprintAddresses (fs : List Footprint) (a : Nat) :
    a ∈ footprintAddresses fs ↔ ∃ f ∈ fs, a ∈ f.addresses := by
  simp [footprintAddresses, List.mem_flatMap]

theorem inFootprints_iff (fs : List Footprint) (a : Nat) :
    inFootprints fs a = true ↔ a ∈ footprintAddresses fs := by
  simp [inFootprints, mem_footprintAddresses, contains_iff]

/-- Every address of a footprint in range is one system memory has (20_memory.md R69). -/
theorem inRange_bound (f : Footprint) (h : f.inRange = true) (a : Nat) (ha : a ∈ f.addresses) :
    a < Config.addrLimit := by
  obtain ⟨r, hr, t, ht, rfl⟩ := (mem_addresses f a).1 ha
  have hmul : r * f.stride ≤ (f.rows - 1) * f.stride := Nat.mul_le_mul_right _ (by omega)
  simp only [Footprint.inRange, decide_eq_true_eq] at h
  omega

/-- The addresses of footprints that are all in range. -/
theorem footprints_bound (fs : List Footprint) (h : fs.any (fun f => !f.inRange) = false) (a : Nat)
    (ha : a ∈ footprintAddresses fs) : a < Config.addrLimit := by
  obtain ⟨f, hf, haf⟩ := (mem_footprintAddresses fs a).1 ha
  refine inRange_bound f ?_ a haf
  simpa using (List.any_eq_false.1 h) f hf

/-- The write footprints are among a command's footprints. -/
theorem write_subset_footprints (i : Instr) (l : Latched) (a : Nat)
    (h : a ∈ footprintAddresses (writeFootprints i l)) : a ∈ footprintAddresses (footprints i l) := by
  obtain ⟨f, hf, haf⟩ := (mem_footprintAddresses _ _).1 h
  exact (mem_footprintAddresses _ _).2 ⟨f, List.mem_append_right _ hf, haf⟩

/-- A sample of a plane lies in that plane's footprint (20_memory.md R62, R68). -/
theorem planeAddress_mem (base stride : Word) (rows rowBytes unit row col k : Nat) (hr : row < rows)
    (hk : unit * col + k < rowBytes) :
    planeAddress base stride unit row col + k ∈ (planeFootprint base stride rows rowBytes).addresses :=
  (mem_addresses _ _).2 ⟨row, hr, unit * col + k, hk, by simp [planeAddress, planeFootprint]; omega⟩

theorem srcY_mem (l : Latched) {row col : Nat} (hr : row < l.H) (hc : col < l.W) :
    l.srcYAt row col ∈ footprintAddresses (srcFootprints l) :=
  (mem_footprintAddresses _ _).2 ⟨_, by simp [srcFootprints],
    planeAddress_mem _ _ l.H l.W 1 row col 0 hr (by omega)⟩

theorem srcU_mem (l : Latched) {i j : Nat} (hi : i < l.CH) (hj : j < l.CW) :
    l.srcUAt i j ∈ footprintAddresses (srcFootprints l) :=
  (mem_footprintAddresses _ _).2 ⟨_, by simp [srcFootprints],
    planeAddress_mem l.planes.srcUBase l.planes.srcUVStride l.CH l.CW 1 i j 0 hi (by omega)⟩

theorem srcV_mem (l : Latched) {i j : Nat} (hi : i < l.CH) (hj : j < l.CW) :
    l.srcVAt i j ∈ footprintAddresses (srcFootprints l) :=
  (mem_footprintAddresses _ _).2 ⟨_, by simp [srcFootprints],
    planeAddress_mem l.planes.srcVBase l.planes.srcUVStride l.CH l.CW 1 i j 0 hi (by omega)⟩

theorem dstY_mem (l : Latched) {row col : Nat} (hr : row < l.H) (hc : col < l.W) :
    l.dstYAt row col ∈ footprintAddresses (dstFootprints l) :=
  (mem_footprintAddresses _ _).2 ⟨_, by simp [dstFootprints],
    planeAddress_mem _ _ l.H l.W 1 row col 0 hr (by omega)⟩

theorem dstU_mem (l : Latched) {i j : Nat} (hi : i < l.CH) (hj : j < l.CW) :
    l.dstUAt i j ∈ footprintAddresses (dstFootprints l) :=
  (mem_footprintAddresses _ _).2 ⟨_, by simp [dstFootprints],
    planeAddress_mem l.planes.dstUBase l.planes.dstUVStride l.CH l.CW 1 i j 0 hi (by omega)⟩

theorem dstV_mem (l : Latched) {i j : Nat} (hi : i < l.CH) (hj : j < l.CW) :
    l.dstVAt i j ∈ footprintAddresses (dstFootprints l) :=
  (mem_footprintAddresses _ _).2 ⟨_, by simp [dstFootprints],
    planeAddress_mem l.planes.dstVBase l.planes.dstUVStride l.CH l.CW 1 i j 0 hi (by omega)⟩

/-- A channel of an RGBA pixel lies in the packed footprint (20_memory.md R66). -/
theorem rgba_mem (l : Latched) {row col ch : Nat} (hr : row < l.H) (hc : col < l.W) (hch : ch < 4) :
    l.rgbaAt row col + ch ∈ footprintAddresses [rgbaFootprint l] :=
  (mem_footprintAddresses _ _).2 ⟨rgbaFootprint l, by simp,
    planeAddress_mem _ _ l.H (4 * l.W) 4 row col ch hr (by omega)⟩

/-- The top-left pixel of a 2×2 block exists, in odd pictures too (40_csc_forward.md R113). -/
theorem topLeft_row (l : Latched) {i : Nat} (h : i < l.CH) : 2 * i < l.H := by
  simp only [Latched.CH, ceil2] at h; omega

theorem topLeft_col (l : Latched) {j : Nat} (h : j < l.CW) : 2 * j < l.W := by
  simp only [Latched.CW, ceil2] at h; omega

/-- The chroma sample of a pixel exists, in odd pictures too (41_csc_inverse.md R137). -/
theorem chroma_row (l : Latched) {row : Nat} (h : row < l.H) : row / 2 < l.CH := by
  simp only [Latched.CH, ceil2]; omega

theorem chroma_col (l : Latched) {col : Nat} (h : col < l.W) : col / 2 < l.CW := by
  simp only [Latched.CW, ceil2]; omega

end Sys2Proof.Machine
end

