-- ==== Sys2Proof/Laws/Cells.lean ====
section
/-! SUPPORT. Where each command's `Perform` writes: inside its write footprints, in every state
(20_memory.md R63). -/

namespace Sys2Proof.Machine

/-- The cells of the luma sweep. -/
theorem mem_forwardLuma (l : Latched) (rd : Nat → Byte) (c : Host.Cell) :
    c ∈ forwardLuma l rd ↔ ∃ row < l.H, ∃ col < l.W,
      c = (l.dstYAt row col, ofPixel lumaF rd (l.rgbaAt row col)) := by
  simp only [forwardLuma, List.mem_flatMap, List.mem_range, List.mem_map]
  constructor
  · rintro ⟨r, hr, k, hk, rfl⟩; exact ⟨r, hr, k, hk, rfl⟩
  · rintro ⟨r, hr, k, hk, rfl⟩; exact ⟨r, hr, k, hk, rfl⟩

/-- The cells of the chroma sweep. -/
theorem mem_forwardChroma (l : Latched) (rd : Nat → Byte) (c : Host.Cell) :
    c ∈ forwardChroma l rd ↔ ∃ i < l.CH, ∃ j < l.CW,
      c = (l.dstUAt i j, ofPixel cbF rd (l.rgbaAt (2 * i) (2 * j))) ∨
      c = (l.dstVAt i j, ofPixel crF rd (l.rgbaAt (2 * i) (2 * j))) := by
  simp only [forwardChroma, List.mem_flatMap, List.mem_range, List.mem_cons, List.not_mem_nil, or_false]

/-- The cells of the inverse sweep. -/
theorem mem_inverseCells (l : Latched) (rd : Nat → Byte) (c : Host.Cell) :
    c ∈ inverseCells l rd ↔ ∃ row < l.H, ∃ col < l.W, c ∈ inversePixel l rd row col := by
  simp only [inverseCells, List.mem_flatMap, List.mem_range]

/-- The cells of REPACK's luma sweep. -/
theorem mem_repackLuma (l : Latched) (rd : Nat → Byte) (c : Host.Cell) :
    c ∈ repackLuma l rd ↔ ∃ row < l.H, ∃ col < l.W, c = (l.dstYAt row col, rd (l.srcYAt row col)) := by
  simp only [repackLuma, List.mem_flatMap, List.mem_range, List.mem_map]
  constructor
  · rintro ⟨r, hr, k, hk, rfl⟩; exact ⟨r, hr, k, hk, rfl⟩
  · rintro ⟨r, hr, k, hk, rfl⟩; exact ⟨r, hr, k, hk, rfl⟩

/-- The cells of REPACK's chroma sweep. -/
theorem mem_repackChroma (l : Latched) (rd : Nat → Byte) (c : Host.Cell) :
    c ∈ repackChroma l rd ↔ ∃ i < l.CH, ∃ j < l.CW,
      c = (l.dstUAt i j, rd (l.srcUAt i j)) ∨ c = (l.dstVAt i j, rd (l.srcVAt i j)) := by
  simp only [repackChroma, List.mem_flatMap, List.mem_range, List.mem_cons, List.not_mem_nil, or_false]

theorem forwardCells_in_destination (l : Latched) (rd : Nat → Byte) (c : Host.Cell)
    (h : c ∈ forwardCells l rd) : c.1 ∈ footprintAddresses (dstFootprints l) := by
  rcases List.mem_append.1 h with h | h
  · obtain ⟨row, hr, col, hc, rfl⟩ := (mem_forwardLuma l rd c).1 h
    exact dstY_mem l hr hc
  · obtain ⟨i, hi, j, hj, rfl | rfl⟩ := (mem_forwardChroma l rd c).1 h
    · exact dstU_mem l hi hj
    · exact dstV_mem l hi hj

theorem inverseCells_in_destination (l : Latched) (rd : Nat → Byte) (c : Host.Cell)
    (h : c ∈ inverseCells l rd) : c.1 ∈ footprintAddresses [rgbaFootprint l] := by
  obtain ⟨row, hr, col, hc, hx⟩ := (mem_inverseCells l rd c).1 h
  simp only [inversePixel, List.mem_cons, List.not_mem_nil, or_false] at hx
  rcases hx with rfl | rfl | rfl | rfl
  · exact rgba_mem l (ch := 0) hr hc (by omega)
  · exact rgba_mem l (ch := 1) hr hc (by omega)
  · exact rgba_mem l (ch := 2) hr hc (by omega)
  · exact rgba_mem l (ch := 3) hr hc (by omega)

theorem repackCells_in_destination (l : Latched) (rd : Nat → Byte) (c : Host.Cell)
    (h : c ∈ repackCells l rd) : c.1 ∈ footprintAddresses (dstFootprints l) := by
  rcases List.mem_append.1 h with h | h
  · obtain ⟨row, hr, col, hc, rfl⟩ := (mem_repackLuma l rd c).1 h
    exact dstY_mem l hr hc
  · obtain ⟨i, hi, j, hj, rfl | rfl⟩ := (mem_repackChroma l rd c).1 h
    · exact dstU_mem l hi hj
    · exact dstV_mem l hi hj

/-- `Perform` writes no byte outside `WFP`. -/
theorem performCells_in_destination (i : Instr) (l : Latched) (rd : Nat → Byte) (c : Host.Cell)
    (h : c ∈ performCells i l rd) : c.1 ∈ footprintAddresses (writeFootprints i l) := by
  cases i
  · simp [performCells, nopCells] at h
  · exact forwardCells_in_destination l rd c h
  · exact inverseCells_in_destination l rd c h
  · exact repackCells_in_destination l rd c h

end Sys2Proof.Machine
end

