-- ==== Sys2Proof/Laws/Memory.lean ====
section
/-! SUPPORT. System memory: reads after writes, and the canonical form every operation keeps. -/

namespace Sys2Proof.Machine

theorem lookup_write_same (m : Memory) (a : Nat) (v : Byte) :
    Memory.lookup (Memory.write m a v) a = some v := by
  induction m with
  | nil => simp [Memory.write, Memory.lookup]
  | cons c m ih =>
    obtain ⟨b, u⟩ := c
    simp only [Memory.write]
    split
    · simp [Memory.lookup]
    · split
      · simp [Memory.lookup]
      · rename_i h
        simp [Memory.lookup, Ne.symm h, ih]

theorem lookup_write_other (m : Memory) {a b : Nat} (v : Byte) (h : b ≠ a) :
    Memory.lookup (Memory.write m a v) b = Memory.lookup m b := by
  induction m with
  | nil => simp [Memory.write, Memory.lookup, Ne.symm h]
  | cons c m ih =>
    obtain ⟨d, u⟩ := c
    simp only [Memory.write]
    split
    · simp [Memory.lookup, Ne.symm h]
    · split
      · subst_vars; simp [Memory.lookup, Ne.symm h]
      · simp [Memory.lookup, ih]

@[simp] theorem read_write_same (m : Memory) (a : Nat) (v : Byte) :
    (Memory.write m a v).read a = v := by
  simp [Memory.read, lookup_write_same]

theorem read_write_other (m : Memory) {a b : Nat} (v : Byte) (h : b ≠ a) :
    (Memory.write m a v).read b = m.read b := by
  simp [Memory.read, lookup_write_other m v h]

theorem read_write (m : Memory) (a b : Nat) (v : Byte) :
    (Memory.write m a v).read b = if b = a then v else m.read b := by
  split
  · subst_vars; simp
  · exact read_write_other m v ‹_›

/-- An address a write can come before: one below every listed one. -/
theorem mem_write_bound (m : Memory) (a : Nat) (v : Byte) (c : Host.Cell) (h : c ∈ Memory.write m a v) :
    c = (a, v) ∨ c ∈ m := by
  induction m with
  | nil => simpa [Memory.write] using h
  | cons d m ih =>
    obtain ⟨b, u⟩ := d
    simp only [Memory.write] at h
    split at h
    · simpa using h
    · split at h
      · simp only [List.mem_cons] at h ⊢; tauto
      · simp only [List.mem_cons] at h ⊢
        rcases h with h | h
        · exact .inr (.inl h)
        · exact (ih h).imp_right .inr

theorem write_pairwise (m : Memory) (a : Nat) (v : Byte)
    (h : m.Pairwise (fun c d : Host.Cell => c.1 < d.1)) :
    (Memory.write m a v).Pairwise (fun c d => c.1 < d.1) := by
  induction m with
  | nil => simp [Memory.write]
  | cons c m ih =>
    obtain ⟨b, u⟩ := c
    rw [List.pairwise_cons] at h
    simp only [Memory.write]
    split
    · refine List.pairwise_cons.2 ⟨?_, List.pairwise_cons.2 h⟩
      intro d hd
      rcases List.mem_cons.1 hd with rfl | hd
      · assumption
      · exact lt_trans ‹a < b› (h.1 d hd)
    · split
      · subst_vars
        exact List.pairwise_cons.2 h
      · refine List.pairwise_cons.2 ⟨?_, ih h.2⟩
        intro d hd
        rcases mem_write_bound m a v d hd with rfl | hd
        · show b < a
          omega
        · exact h.1 d hd

/-- A write at an address system memory has keeps the canonical form. -/
theorem write_wf (m : Memory) (a : Nat) (v : Byte) (ha : a < Config.addrLimit) (h : m.wf) :
    (Memory.write m a v).wf := by
  refine ⟨write_pairwise m a v h.1, fun c hc => ?_⟩
  rcases mem_write_bound m a v c hc with rfl | hc
  · exact ha
  · exact h.2 c hc

/-- A list of writes keeps the canonical form. -/
theorem writeAll_wf (cs : List Host.Cell) (m : Memory) (hc : ∀ c ∈ cs, c.1 < Config.addrLimit)
    (h : m.wf) : (Memory.writeAll m cs).wf := by
  induction cs generalizing m with
  | nil => exact h
  | cons c cs ih =>
    exact ih _ (fun d hd => hc d (.tail _ hd)) (write_wf m _ _ (hc c (.head _)) h)

/-- A list of writes leaves every other address alone. -/
theorem read_writeAll_outside (cs : List Host.Cell) (m : Memory) (a : Nat) (h : ∀ c ∈ cs, c.1 ≠ a) :
    (Memory.writeAll m cs).read a = m.read a := by
  induction cs generalizing m with
  | nil => rfl
  | cons c cs ih =>
    rw [Memory.writeAll, ih _ fun d hd => h d (.tail _ hd)]
    exact read_write_other m _ (Ne.symm (h c (.head _)))

/-- What every write to an address agrees on is read there. -/
theorem read_writeAll_agreed (cs : List Host.Cell) (m : Memory) (a : Nat) (v : Byte)
    (hin : ∃ c ∈ cs, c.1 = a) (hv : ∀ c ∈ cs, c.1 = a → c.2 = v) :
    (Memory.writeAll m cs).read a = v := by
  induction cs generalizing m with
  | nil => simp at hin
  | cons c cs ih =>
    rw [Memory.writeAll]
    by_cases hlater : ∃ d ∈ cs, d.1 = a
    · exact ih _ hlater fun d hd => hv d (.tail _ hd)
    · rw [read_writeAll_outside cs _ a fun d hd he => hlater ⟨d, hd, he⟩]
      obtain ⟨d, hd, rfl⟩ := hin
      rcases List.mem_cons.1 hd with rfl | hd
      · rw [read_write_same, hv _ (.head _) rfl]
      · exact absurd ⟨d, hd, rfl⟩ hlater

/-- *Any value* at an address of the draw is that draw's byte. -/
theorem read_anyCells (m : Memory) (n : Nat) (as : List Nat) (a : Nat) (h : a ∈ as) :
    (Memory.writeAll m (anyCells n as)).read a = Config.anyByte n a := by
  refine read_writeAll_agreed _ _ _ _ ⟨(a, Config.anyByte n a), ?_, rfl⟩ ?_
  · exact List.mem_map.2 ⟨a, h, rfl⟩
  · intro c hc hca
    obtain ⟨b, -, rfl⟩ := List.mem_map.1 hc
    simp only at hca
    rw [hca]

/-- A draw changes no byte outside its addresses. -/
theorem read_anyCells_outside (m : Memory) (n : Nat) (as : List Nat) (a : Nat) (h : a ∉ as) :
    (Memory.writeAll m (anyCells n as)).read a = m.read a := by
  refine read_writeAll_outside _ _ _ fun c hc hca => h ?_
  obtain ⟨b, hb, rfl⟩ := List.mem_map.1 hc
  exact hca ▸ hb

/-- A draw keeps the canonical form. -/
theorem anyCells_wf (m : Memory) (n : Nat) (as : List Nat) (has : ∀ a ∈ as, a < Config.addrLimit)
    (h : m.wf) : (Memory.writeAll m (anyCells n as)).wf := by
  refine writeAll_wf _ _ (fun c hc => ?_) h
  obtain ⟨b, hb, rfl⟩ := List.mem_map.1 hc
  exact has b hb

end Sys2Proof.Machine
end

