-- ==== Sys2Proof/Laws/State.lean ====
section
/-! SUPPORT. One lemma per field for each named update of the state, so that no later proof unfolds one. -/

namespace Sys2Proof.Machine

@[simp] theorem setDone_irqEn (s : State) : (setDone s).irqEn = s.irqEn := rfl
@[simp] theorem setDone_done (s : State) : (setDone s).status.done = true := rfl
@[simp] theorem setDone_err (s : State) : (setDone s).status.err = s.status.err := rfl
@[simp] theorem setDone_cmdLost (s : State) : (setDone s).status.cmdLost = s.status.cmdLost := rfl
@[simp] theorem setDone_errCode (s : State) : (setDone s).status.errCode = s.status.errCode := rfl
@[simp] theorem setDone_lastOp (s : State) : (setDone s).status.lastOp = s.status.lastOp := rfl
@[simp] theorem setDone_regs (s : State) : (setDone s).regs = s.regs := rfl
@[simp] theorem setDone_phase (s : State) : (setDone s).phase = s.phase := rfl
@[simp] theorem setDone_latch (s : State) : (setDone s).latch = s.latch := rfl
@[simp] theorem setDone_taint (s : State) : (setDone s).taint = s.taint := rfl
@[simp] theorem setDone_mem (s : State) : (setDone s).mem = s.mem := rfl
@[simp] theorem setDone_rst (s : State) : (setDone s).rst = s.rst := rfl
@[simp] theorem setDone_platform (s : State) : (setDone s).platform = s.platform := rfl
@[simp] theorem setDone_inputs (s : State) : (setDone s).inputs = s.inputs := rfl
@[simp] theorem setDone_reply (s : State) : (setDone s).reply = s.reply := rfl
@[simp] theorem setDone_awaited (s : State) : (setDone s).awaited = s.awaited := rfl
@[simp] theorem setDone_unobserved (s : State) : (setDone s).unobserved = s.unobserved := rfl
@[simp] theorem setDone_draws (s : State) : (setDone s).draws = s.draws := rfl

@[simp] theorem setCmdLost_irqEn (s : State) : (setCmdLost s).irqEn = s.irqEn := rfl
@[simp] theorem setCmdLost_done (s : State) : (setCmdLost s).status.done = s.status.done := rfl
@[simp] theorem setCmdLost_err (s : State) : (setCmdLost s).status.err = s.status.err := rfl
@[simp] theorem setCmdLost_cmdLost (s : State) : (setCmdLost s).status.cmdLost = true := rfl
@[simp] theorem setCmdLost_errCode (s : State) : (setCmdLost s).status.errCode = s.status.errCode := rfl
@[simp] theorem setCmdLost_lastOp (s : State) : (setCmdLost s).status.lastOp = s.status.lastOp := rfl
@[simp] theorem setCmdLost_regs (s : State) : (setCmdLost s).regs = s.regs := rfl
@[simp] theorem setCmdLost_phase (s : State) : (setCmdLost s).phase = s.phase := rfl
@[simp] theorem setCmdLost_latch (s : State) : (setCmdLost s).latch = s.latch := rfl
@[simp] theorem setCmdLost_taint (s : State) : (setCmdLost s).taint = s.taint := rfl
@[simp] theorem setCmdLost_mem (s : State) : (setCmdLost s).mem = s.mem := rfl
@[simp] theorem setCmdLost_rst (s : State) : (setCmdLost s).rst = s.rst := rfl
@[simp] theorem setCmdLost_platform (s : State) : (setCmdLost s).platform = s.platform := rfl
@[simp] theorem setCmdLost_inputs (s : State) : (setCmdLost s).inputs = s.inputs := rfl
@[simp] theorem setCmdLost_reply (s : State) : (setCmdLost s).reply = s.reply := rfl
@[simp] theorem setCmdLost_awaited (s : State) : (setCmdLost s).awaited = s.awaited := rfl
@[simp] theorem setCmdLost_unobserved (s : State) : (setCmdLost s).unobserved = s.unobserved := rfl
@[simp] theorem setCmdLost_draws (s : State) : (setCmdLost s).draws = s.draws := rfl

@[simp] theorem raiseError_irqEn (c : ErrCode) (s : State) : (raiseError c s).irqEn = s.irqEn := rfl
@[simp] theorem raiseError_done (c : ErrCode) (s : State) : (raiseError c s).status.done = s.status.done := rfl
@[simp] theorem raiseError_err (c : ErrCode) (s : State) : (raiseError c s).status.err = true := rfl
@[simp] theorem raiseError_cmdLost (c : ErrCode) (s : State) : (raiseError c s).status.cmdLost = s.status.cmdLost := rfl
@[simp] theorem raiseError_errCode (c : ErrCode) (s : State) : (raiseError c s).status.errCode = c := rfl
@[simp] theorem raiseError_lastOp (c : ErrCode) (s : State) : (raiseError c s).status.lastOp = s.status.lastOp := rfl
@[simp] theorem raiseError_regs (c : ErrCode) (s : State) : (raiseError c s).regs = s.regs := rfl
@[simp] theorem raiseError_phase (c : ErrCode) (s : State) : (raiseError c s).phase = s.phase := rfl
@[simp] theorem raiseError_latch (c : ErrCode) (s : State) : (raiseError c s).latch = s.latch := rfl
@[simp] theorem raiseError_taint (c : ErrCode) (s : State) : (raiseError c s).taint = s.taint := rfl
@[simp] theorem raiseError_mem (c : ErrCode) (s : State) : (raiseError c s).mem = s.mem := rfl
@[simp] theorem raiseError_rst (c : ErrCode) (s : State) : (raiseError c s).rst = s.rst := rfl
@[simp] theorem raiseError_platform (c : ErrCode) (s : State) : (raiseError c s).platform = s.platform := rfl
@[simp] theorem raiseError_inputs (c : ErrCode) (s : State) : (raiseError c s).inputs = s.inputs := rfl
@[simp] theorem raiseError_reply (c : ErrCode) (s : State) : (raiseError c s).reply = s.reply := rfl
@[simp] theorem raiseError_awaited (c : ErrCode) (s : State) : (raiseError c s).awaited = s.awaited := rfl
@[simp] theorem raiseError_unobserved (c : ErrCode) (s : State) : (raiseError c s).unobserved = s.unobserved := rfl
@[simp] theorem raiseError_draws (c : ErrCode) (s : State) : (raiseError c s).draws = s.draws := rfl

@[simp] theorem writeCtrl_irqEn (v : Word) (s : State) : (writeCtrl v s).irqEn = v.getLsbD 0 := rfl
@[simp] theorem writeCtrl_status (v : Word) (s : State) : (writeCtrl v s).status = s.status := rfl
@[simp] theorem writeCtrl_regs (v : Word) (s : State) : (writeCtrl v s).regs = s.regs := rfl
@[simp] theorem writeCtrl_phase (v : Word) (s : State) : (writeCtrl v s).phase = s.phase := rfl
@[simp] theorem writeCtrl_latch (v : Word) (s : State) : (writeCtrl v s).latch = s.latch := rfl
@[simp] theorem writeCtrl_taint (v : Word) (s : State) : (writeCtrl v s).taint = s.taint := rfl
@[simp] theorem writeCtrl_mem (v : Word) (s : State) : (writeCtrl v s).mem = s.mem := rfl
@[simp] theorem writeCtrl_rst (v : Word) (s : State) : (writeCtrl v s).rst = s.rst := rfl
@[simp] theorem writeCtrl_platform (v : Word) (s : State) : (writeCtrl v s).platform = s.platform := rfl
@[simp] theorem writeCtrl_inputs (v : Word) (s : State) : (writeCtrl v s).inputs = s.inputs := rfl
@[simp] theorem writeCtrl_reply (v : Word) (s : State) : (writeCtrl v s).reply = s.reply := rfl
@[simp] theorem writeCtrl_awaited (v : Word) (s : State) : (writeCtrl v s).awaited = s.awaited := rfl
@[simp] theorem writeCtrl_unobserved (v : Word) (s : State) : (writeCtrl v s).unobserved = s.unobserved := rfl
@[simp] theorem writeCtrl_draws (v : Word) (s : State) : (writeCtrl v s).draws = s.draws := rfl

@[simp] theorem writeStatus_irqEn (v : Word) (s : State) : (writeStatus v s).irqEn = s.irqEn := rfl
@[simp] theorem writeStatus_done (v : Word) (s : State) : (writeStatus v s).status.done = (s.status.done && !v.getLsbD 1) := rfl
@[simp] theorem writeStatus_err (v : Word) (s : State) : (writeStatus v s).status.err = (s.status.err && !v.getLsbD 2) := rfl
@[simp] theorem writeStatus_cmdLost (v : Word) (s : State) : (writeStatus v s).status.cmdLost = (s.status.cmdLost && !v.getLsbD 3) := rfl
@[simp] theorem writeStatus_errCode (v : Word) (s : State) : (writeStatus v s).status.errCode = if v.getLsbD 2 then .none else s.status.errCode := rfl
@[simp] theorem writeStatus_lastOp (v : Word) (s : State) : (writeStatus v s).status.lastOp = s.status.lastOp := rfl
@[simp] theorem writeStatus_regs (v : Word) (s : State) : (writeStatus v s).regs = s.regs := rfl
@[simp] theorem writeStatus_phase (v : Word) (s : State) : (writeStatus v s).phase = s.phase := rfl
@[simp] theorem writeStatus_latch (v : Word) (s : State) : (writeStatus v s).latch = s.latch := rfl
@[simp] theorem writeStatus_taint (v : Word) (s : State) : (writeStatus v s).taint = s.taint := rfl
@[simp] theorem writeStatus_mem (v : Word) (s : State) : (writeStatus v s).mem = s.mem := rfl
@[simp] theorem writeStatus_rst (v : Word) (s : State) : (writeStatus v s).rst = s.rst := rfl
@[simp] theorem writeStatus_platform (v : Word) (s : State) : (writeStatus v s).platform = s.platform := rfl
@[simp] theorem writeStatus_inputs (v : Word) (s : State) : (writeStatus v s).inputs = s.inputs := rfl
@[simp] theorem writeStatus_reply (v : Word) (s : State) : (writeStatus v s).reply = s.reply := rfl
@[simp] theorem writeStatus_awaited (v : Word) (s : State) : (writeStatus v s).awaited = s.awaited := rfl
@[simp] theorem writeStatus_unobserved (v : Word) (s : State) : (writeStatus v s).unobserved = s.unobserved := rfl
@[simp] theorem writeStatus_draws (v : Word) (s : State) : (writeStatus v s).draws = s.draws := rfl

@[simp] theorem beginAccept_irqEn (w : Word) (s : State) : (beginAccept w s).irqEn = s.irqEn := rfl
@[simp] theorem beginAccept_done (w : Word) (s : State) : (beginAccept w s).status.done = false := rfl
@[simp] theorem beginAccept_err (w : Word) (s : State) : (beginAccept w s).status.err = false := rfl
@[simp] theorem beginAccept_cmdLost (w : Word) (s : State) : (beginAccept w s).status.cmdLost = s.status.cmdLost := rfl
@[simp] theorem beginAccept_errCode (w : Word) (s : State) : (beginAccept w s).status.errCode = .none := rfl
@[simp] theorem beginAccept_lastOp (w : Word) (s : State) : (beginAccept w s).status.lastOp = opField w := rfl
@[simp] theorem beginAccept_regs (w : Word) (s : State) : (beginAccept w s).regs = s.regs := rfl
@[simp] theorem beginAccept_phase (w : Word) (s : State) : (beginAccept w s).phase = s.phase := rfl
@[simp] theorem beginAccept_latch (w : Word) (s : State) : (beginAccept w s).latch = latchOperands w s.regs := rfl
@[simp] theorem beginAccept_taint (w : Word) (s : State) : (beginAccept w s).taint = false := rfl
@[simp] theorem beginAccept_mem (w : Word) (s : State) : (beginAccept w s).mem = s.mem := rfl
@[simp] theorem beginAccept_rst (w : Word) (s : State) : (beginAccept w s).rst = s.rst := rfl
@[simp] theorem beginAccept_platform (w : Word) (s : State) : (beginAccept w s).platform = s.platform := rfl
@[simp] theorem beginAccept_inputs (w : Word) (s : State) : (beginAccept w s).inputs = s.inputs := rfl
@[simp] theorem beginAccept_reply (w : Word) (s : State) : (beginAccept w s).reply = s.reply := rfl
@[simp] theorem beginAccept_awaited (w : Word) (s : State) : (beginAccept w s).awaited = [] := rfl
@[simp] theorem beginAccept_unobserved (w : Word) (s : State) :
    (beginAccept w s).unobserved = footprintAddresses s.awaited ++ s.unobserved := rfl
@[simp] theorem beginAccept_draws (w : Word) (s : State) : (beginAccept w s).draws = s.draws := rfl

@[simp] theorem startEngine_irqEn (i : Instr) (s : State) : (startEngine i s).irqEn = s.irqEn := rfl
@[simp] theorem startEngine_status (i : Instr) (s : State) : (startEngine i s).status = s.status := rfl
@[simp] theorem startEngine_regs (i : Instr) (s : State) : (startEngine i s).regs = s.regs := rfl
@[simp] theorem startEngine_phase (i : Instr) (s : State) : (startEngine i s).phase = .busy := rfl
@[simp] theorem startEngine_latch (i : Instr) (s : State) : (startEngine i s).latch = s.latch := rfl
@[simp] theorem startEngine_taint (i : Instr) (s : State) : (startEngine i s).taint = s.taint := rfl
@[simp] theorem startEngine_mem (i : Instr) (s : State) : (startEngine i s).mem = s.mem := rfl
@[simp] theorem startEngine_rst (i : Instr) (s : State) : (startEngine i s).rst = s.rst := rfl
@[simp] theorem startEngine_platform (i : Instr) (s : State) : (startEngine i s).platform = s.platform := rfl
@[simp] theorem startEngine_inputs (i : Instr) (s : State) : (startEngine i s).inputs = s.inputs := rfl
@[simp] theorem startEngine_reply (i : Instr) (s : State) : (startEngine i s).reply = s.reply := rfl
@[simp] theorem startEngine_awaited (i : Instr) (s : State) : (startEngine i s).awaited = writeFootprints i s.latch := rfl
@[simp] theorem startEngine_unobserved (i : Instr) (s : State) : (startEngine i s).unobserved = s.unobserved := rfl
@[simp] theorem startEngine_draws (i : Instr) (s : State) : (startEngine i s).draws = s.draws := rfl

@[simp] theorem drawBytes_irqEn (as : List Nat) (s : State) : (drawBytes as s).irqEn = s.irqEn := rfl
@[simp] theorem drawBytes_status (as : List Nat) (s : State) : (drawBytes as s).status = s.status := rfl
@[simp] theorem drawBytes_regs (as : List Nat) (s : State) : (drawBytes as s).regs = s.regs := rfl
@[simp] theorem drawBytes_phase (as : List Nat) (s : State) : (drawBytes as s).phase = s.phase := rfl
@[simp] theorem drawBytes_latch (as : List Nat) (s : State) : (drawBytes as s).latch = s.latch := rfl
@[simp] theorem drawBytes_taint (as : List Nat) (s : State) : (drawBytes as s).taint = s.taint := rfl
@[simp] theorem drawBytes_mem (as : List Nat) (s : State) : (drawBytes as s).mem = s.mem.writeAll (anyCells s.draws as) := rfl
@[simp] theorem drawBytes_rst (as : List Nat) (s : State) : (drawBytes as s).rst = s.rst := rfl
@[simp] theorem drawBytes_platform (as : List Nat) (s : State) : (drawBytes as s).platform = s.platform := rfl
@[simp] theorem drawBytes_inputs (as : List Nat) (s : State) : (drawBytes as s).inputs = s.inputs := rfl
@[simp] theorem drawBytes_reply (as : List Nat) (s : State) : (drawBytes as s).reply = s.reply := rfl
@[simp] theorem drawBytes_awaited (as : List Nat) (s : State) : (drawBytes as s).awaited = s.awaited := rfl
@[simp] theorem drawBytes_unobserved (as : List Nat) (s : State) : (drawBytes as s).unobserved = s.unobserved := rfl
@[simp] theorem drawBytes_draws (as : List Nat) (s : State) : (drawBytes as s).draws = s.draws + 1 := rfl

@[simp] theorem blockReset_irqEn (s : State) : (blockReset s).irqEn = false := rfl
@[simp] theorem blockReset_status (s : State) : (blockReset s).status = Status.reset := rfl
@[simp] theorem blockReset_regs (s : State) : (blockReset s).regs = ConfigRegs.reset := rfl
@[simp] theorem blockReset_phase (s : State) : (blockReset s).phase = .idle := rfl
@[simp] theorem blockReset_latch (s : State) : (blockReset s).latch = Latched.reset := rfl
@[simp] theorem blockReset_taint (s : State) : (blockReset s).taint = false := rfl
@[simp] theorem blockReset_mem (s : State) : (blockReset s).mem = s.mem := rfl
@[simp] theorem blockReset_rst (s : State) : (blockReset s).rst = s.rst := rfl
@[simp] theorem blockReset_platform (s : State) : (blockReset s).platform = s.platform := rfl
@[simp] theorem blockReset_inputs (s : State) : (blockReset s).inputs = s.inputs := rfl
@[simp] theorem blockReset_reply (s : State) : (blockReset s).reply = s.reply := rfl
@[simp] theorem blockReset_awaited (s : State) : (blockReset s).awaited = [] := rfl
@[simp] theorem blockReset_unobserved (s : State) :
    (blockReset s).unobserved = footprintAddresses s.awaited ++ s.unobserved := rfl
@[simp] theorem blockReset_draws (s : State) : (blockReset s).draws = s.draws := rfl

@[simp] theorem replyAny_irqEn (a : Nat) (s : State) : (replyAny a s).irqEn = s.irqEn := rfl
@[simp] theorem replyAny_status (a : Nat) (s : State) : (replyAny a s).status = s.status := rfl
@[simp] theorem replyAny_regs (a : Nat) (s : State) : (replyAny a s).regs = s.regs := rfl
@[simp] theorem replyAny_phase (a : Nat) (s : State) : (replyAny a s).phase = s.phase := rfl
@[simp] theorem replyAny_latch (a : Nat) (s : State) : (replyAny a s).latch = s.latch := rfl
@[simp] theorem replyAny_taint (a : Nat) (s : State) : (replyAny a s).taint = s.taint := rfl
@[simp] theorem replyAny_mem (a : Nat) (s : State) : (replyAny a s).mem = s.mem := rfl
@[simp] theorem replyAny_rst (a : Nat) (s : State) : (replyAny a s).rst = s.rst := rfl
@[simp] theorem replyAny_platform (a : Nat) (s : State) : (replyAny a s).platform = s.platform := rfl
@[simp] theorem replyAny_inputs (a : Nat) (s : State) : (replyAny a s).inputs = s.inputs := rfl
@[simp] theorem replyAny_reply (a : Nat) (s : State) : (replyAny a s).reply = .byte (Config.anyByte s.draws a) := rfl
@[simp] theorem replyAny_awaited (a : Nat) (s : State) : (replyAny a s).awaited = s.awaited := rfl
@[simp] theorem replyAny_unobserved (a : Nat) (s : State) : (replyAny a s).unobserved = s.unobserved := rfl
@[simp] theorem replyAny_draws (a : Nat) (s : State) : (replyAny a s).draws = s.draws + 1 := rfl

/-- A configuration write changes no field but `regs`. -/
theorem writeConfig_eq (r : Reg) (v : Word) (s : State) :
    writeConfig r v s = { s with regs := (writeConfig r v s).regs } := by
  unfold writeConfig; split <;> rfl

@[simp] theorem writeConfig_irqEn (r : Reg) (v : Word) (s : State) : (writeConfig r v s).irqEn = s.irqEn := by
  rw [writeConfig_eq]
@[simp] theorem writeConfig_status (r : Reg) (v : Word) (s : State) : (writeConfig r v s).status = s.status := by
  rw [writeConfig_eq]
@[simp] theorem writeConfig_phase (r : Reg) (v : Word) (s : State) : (writeConfig r v s).phase = s.phase := by
  rw [writeConfig_eq]
@[simp] theorem writeConfig_latch (r : Reg) (v : Word) (s : State) : (writeConfig r v s).latch = s.latch := by
  rw [writeConfig_eq]
@[simp] theorem writeConfig_taint (r : Reg) (v : Word) (s : State) : (writeConfig r v s).taint = s.taint := by
  rw [writeConfig_eq]
@[simp] theorem writeConfig_mem (r : Reg) (v : Word) (s : State) : (writeConfig r v s).mem = s.mem := by
  rw [writeConfig_eq]
@[simp] theorem writeConfig_rst (r : Reg) (v : Word) (s : State) : (writeConfig r v s).rst = s.rst := by
  rw [writeConfig_eq]
@[simp] theorem writeConfig_platform (r : Reg) (v : Word) (s : State) : (writeConfig r v s).platform = s.platform := by
  rw [writeConfig_eq]
@[simp] theorem writeConfig_inputs (r : Reg) (v : Word) (s : State) : (writeConfig r v s).inputs = s.inputs := by
  rw [writeConfig_eq]
@[simp] theorem writeConfig_reply (r : Reg) (v : Word) (s : State) : (writeConfig r v s).reply = s.reply := by
  rw [writeConfig_eq]
@[simp] theorem writeConfig_awaited (r : Reg) (v : Word) (s : State) : (writeConfig r v s).awaited = s.awaited := by
  rw [writeConfig_eq]
@[simp] theorem writeConfig_unobserved (r : Reg) (v : Word) (s : State) : (writeConfig r v s).unobserved = s.unobserved := by
  rw [writeConfig_eq]
@[simp] theorem writeConfig_draws (r : Reg) (v : Word) (s : State) : (writeConfig r v s).draws = s.draws := by
  rw [writeConfig_eq]

@[simp] theorem loseOutcome_irqEn (s : State) : (loseOutcome s).irqEn = s.irqEn := rfl
@[simp] theorem loseOutcome_status (s : State) : (loseOutcome s).status = s.status := rfl
@[simp] theorem loseOutcome_regs (s : State) : (loseOutcome s).regs = s.regs := rfl
@[simp] theorem loseOutcome_phase (s : State) : (loseOutcome s).phase = s.phase := rfl
@[simp] theorem loseOutcome_latch (s : State) : (loseOutcome s).latch = s.latch := rfl
@[simp] theorem loseOutcome_taint (s : State) : (loseOutcome s).taint = s.taint := rfl
@[simp] theorem loseOutcome_mem (s : State) : (loseOutcome s).mem = s.mem := rfl
@[simp] theorem loseOutcome_rst (s : State) : (loseOutcome s).rst = s.rst := rfl
@[simp] theorem loseOutcome_platform (s : State) : (loseOutcome s).platform = s.platform := rfl
@[simp] theorem loseOutcome_inputs (s : State) : (loseOutcome s).inputs = s.inputs := rfl
@[simp] theorem loseOutcome_reply (s : State) : (loseOutcome s).reply = s.reply := rfl
@[simp] theorem loseOutcome_draws (s : State) : (loseOutcome s).draws = s.draws := rfl
@[simp] theorem loseOutcome_awaited (s : State) : (loseOutcome s).awaited = [] := rfl
@[simp] theorem loseOutcome_unobserved (s : State) :
    (loseOutcome s).unobserved = footprintAddresses s.awaited ++ s.unobserved := rfl

@[simp] theorem abandon_irqEn (as : List Nat) (s : State) : (abandon as s).irqEn = s.irqEn := rfl
@[simp] theorem abandon_status (as : List Nat) (s : State) : (abandon as s).status = s.status := rfl
@[simp] theorem abandon_regs (as : List Nat) (s : State) : (abandon as s).regs = s.regs := rfl
@[simp] theorem abandon_phase (as : List Nat) (s : State) : (abandon as s).phase = s.phase := rfl
@[simp] theorem abandon_latch (as : List Nat) (s : State) : (abandon as s).latch = s.latch := rfl
@[simp] theorem abandon_taint (as : List Nat) (s : State) : (abandon as s).taint = s.taint := rfl
@[simp] theorem abandon_rst (as : List Nat) (s : State) : (abandon as s).rst = s.rst := rfl
@[simp] theorem abandon_platform (as : List Nat) (s : State) : (abandon as s).platform = s.platform := rfl
@[simp] theorem abandon_inputs (as : List Nat) (s : State) : (abandon as s).inputs = s.inputs := rfl
@[simp] theorem abandon_reply (as : List Nat) (s : State) : (abandon as s).reply = s.reply := rfl
@[simp] theorem abandon_mem (as : List Nat) (s : State) :
    (abandon as s).mem = s.mem.writeAll (anyCells s.draws as) := rfl
@[simp] theorem abandon_draws (as : List Nat) (s : State) : (abandon as s).draws = s.draws + 1 := rfl
@[simp] theorem abandon_awaited (as : List Nat) (s : State) : (abandon as s).awaited = [] := rfl
@[simp] theorem abandon_unobserved (as : List Nat) (s : State) :
    (abandon as s).unobserved = s.unobserved.filter fun a => !as.contains a := rfl

/-- Observing STATUS changes no field but the two of the ghost. -/
theorem observeStatus_eq (s : State) :
    observeStatus s = { s with
      awaited := (observeStatus s).awaited, unobserved := (observeStatus s).unobserved } := by
  unfold observeStatus
  split
  · split <;> rfl
  · rfl

@[simp] theorem observeStatus_irqEn (s : State) : (observeStatus s).irqEn = s.irqEn := by
  rw [observeStatus_eq]
@[simp] theorem observeStatus_status (s : State) : (observeStatus s).status = s.status := by
  rw [observeStatus_eq]
@[simp] theorem observeStatus_regs (s : State) : (observeStatus s).regs = s.regs := by
  rw [observeStatus_eq]
@[simp] theorem observeStatus_phase (s : State) : (observeStatus s).phase = s.phase := by
  rw [observeStatus_eq]
@[simp] theorem observeStatus_latch (s : State) : (observeStatus s).latch = s.latch := by
  rw [observeStatus_eq]
@[simp] theorem observeStatus_taint (s : State) : (observeStatus s).taint = s.taint := by
  rw [observeStatus_eq]
@[simp] theorem observeStatus_mem (s : State) : (observeStatus s).mem = s.mem := by
  rw [observeStatus_eq]
@[simp] theorem observeStatus_rst (s : State) : (observeStatus s).rst = s.rst := by
  rw [observeStatus_eq]
@[simp] theorem observeStatus_platform (s : State) : (observeStatus s).platform = s.platform := by
  rw [observeStatus_eq]
@[simp] theorem observeStatus_inputs (s : State) : (observeStatus s).inputs = s.inputs := by
  rw [observeStatus_eq]
@[simp] theorem observeStatus_reply (s : State) : (observeStatus s).reply = s.reply := by
  rw [observeStatus_eq]
@[simp] theorem observeStatus_draws (s : State) : (observeStatus s).draws = s.draws := by
  rw [observeStatus_eq]

/-- A status that has no outcome recorded reads as such. -/
@[simp] theorem status_reset_done : Status.reset.done = false := rfl
@[simp] theorem status_reset_err : Status.reset.err = false := rfl
@[simp] theorem status_reset_cmdLost : Status.reset.cmdLost = false := rfl
@[simp] theorem status_reset_errCode : Status.reset.errCode = .none := rfl
@[simp] theorem status_reset_lastOp : Status.reset.lastOp = 0 := rfl

/-- `irq` by its definition (60_exceptions.md R186). -/
theorem irq_eq (s : State) : s.irq = (s.irqEn && (s.status.done || s.status.err)) := rfl

end Sys2Proof.Machine
end

