-- ==== Sys2Proof/Laws/Ops.lean ====
section
/-! SUPPORT. Everything a shared operation can do, said once: acceptance, completion, reset, and the two stages
of `exec`. Later proofs cite these and do not unfold the operations. -/

namespace Sys2Proof.Machine

@[simp] theorem decode_encode (i : Instr) : decode (encode i) = .ok i := by cases i <;> decide

/-- The opcode a command's word carries is that command's. -/
@[simp] theorem commandOf_encode (i : Instr) : commandOf (opField (encode i)) = some i := by
  cases i <;> decide

/-- A word that decodes carries its command's opcode. -/
theorem commandOf_decode {w : Word} {i : Instr} (h : decode w = .ok i) :
    commandOf (opField w) = some i := by
  unfold decode at h
  split at h
  · split at h
    · rename_i j hj; rw [hj]; simp_all
    · exact absurd h (by simp)
  · exact absurd h (by simp)

/-- In Idle every command's meaning is acceptance of its word (43_control.md R170). -/
theorem exec_idle (i : Instr) (s : State) (h : s.phase = .idle) : exec i s = accept (encode i) s := by
  cases i <;> simp [exec, execNop, execCscFwd, execCscInv, execRepack, runCommand, h]

/-- In Busy every command's meaning is its completion (43_control.md R172). -/
theorem exec_busy (i : Instr) (s : State) (h : s.phase = .busy) :
    exec i s = complete i (performCells i) s := by
  cases i <;> simp [exec, execNop, execCscFwd, execCscInv, execRepack, runCommand, h, performCells]

/-- Everything acceptance can do where it answers a next state. -/
theorem accept_cases {w : Word} {s t : State} (h : accept w s = .next t) :
    (∃ e, decode w = .error e ∧ t = raiseError .badCmd (beginAccept w s)) ∨
    (∃ i, decode w = .ok i ∧ checkCommand i (latchOperands w s.regs) ≠ .none ∧
      t = raiseError (checkCommand i (latchOperands w s.regs)) (beginAccept w s)) ∨
    (decode w = .ok .nop ∧ t = setDone (beginAccept w s)) ∨
    (∃ i, i ≠ .nop ∧ decode w = .ok i ∧ checkCommand i (latchOperands w s.regs) = .none ∧
      footprintRefusal s.platform (footprints i (latchOperands w s.regs)) = none ∧
      t = startEngine i (beginAccept w s)) := by
  simp only [accept, beginAccept_latch] at h
  split at h
  · rename_i e he
    exact .inl ⟨e, he, by simpa using h.symm⟩
  · rename_i i hi
    split at h
    · rename_i hc
      simp only [startCommand, beginAccept_platform, beginAccept_latch] at h
      split at h
      · subst_vars
        exact .inr (.inr (.inl ⟨hi, by simpa using h.symm⟩))
      · split at h
        · exact absurd h (by simp)
        · rename_i hn _ hr
          exact .inr (.inr (.inr ⟨i, hn, hi, hc, hr, by simpa using h.symm⟩))
    · rename_i hc
      exact .inr (.inl ⟨i, hi, hc, by simpa using h.symm⟩)

/-- Acceptance never faults. -/
theorem accept_ne_fault (w : Word) (s : State) (f : Fault) : accept w s ≠ .fault f := by
  intro h
  simp only [accept, startCommand] at h
  split at h
  · simp at h
  · split at h
    · split at h
      · simp at h
      · split at h <;> simp at h
    · simp at h

/-- Everything completion can do where it answers a next state. -/
theorem complete_cases {i : Instr} {e : Latched → (Nat → Byte) → List Host.Cell} {s t : State}
    (h : complete i e s = .next t) :
    (footprints i s.latch).any (fun f => !f.inRange) = false ∧
    footprintRefusal s.platform (footprints i s.latch) = none ∧ t = completion i e s := by
  unfold complete at h
  split at h
  · exact absurd h (by simp)
  · rename_i hr
    split at h
    · exact absurd h (by simp)
    · exact ⟨by simpa using hr, ‹_›, by simpa using h.symm⟩

/-- The three branches of the completion step (43_control.md R172). -/
theorem completion_cases (i : Instr) (e : Latched → (Nat → Byte) → List Host.Cell) (s : State) :
    (busAccepts s.platform i s.latch = false ∧ completion i e s = raiseError .bus
      { drawBytes ((footprintAddresses (writeFootprints i s.latch)).filter
          fun a => busOK s.platform a .write) s with phase := .idle }) ∨
    (busAccepts s.platform i s.latch = true ∧ (overlaps i s.latch = true ∨ s.taint = true) ∧
      completion i e s = setDone
        { drawBytes (footprintAddresses (writeFootprints i s.latch)) s with phase := .idle }) ∨
    (busAccepts s.platform i s.latch = true ∧ overlaps i s.latch = false ∧ s.taint = false ∧
      completion i e s = setDone { s with mem := s.mem.writeAll (e s.latch s.mem.read), phase := .idle }) := by
  cases hb : busAccepts s.platform i s.latch
  · left; simp [completion, hb]
  · right
    cases ho : overlaps i s.latch <;> cases ht : s.taint <;> simp [completion, hb, ho, ht]

/-- Everything asserting `rst` can do where it answers a next state. -/
theorem assertReset_cases {s t : State} (h : assertReset s = .next t) :
    (runningCommand s = none ∧ t = { blockReset s with rst := true }) ∨
    (∃ i, runningCommand s = some i ∧ (writeFootprints i s.latch).any (fun f => !f.inRange) = false ∧
      t = { blockReset (abandon (footprintAddresses (writeFootprints i s.latch)) s) with rst := true }) := by
  unfold assertReset at h
  split at h
  · exact .inl ⟨‹_›, by simpa using h.symm⟩
  · rename_i i hi
    split at h
    · exact absurd h (by simp)
    · exact .inr ⟨i, hi, by simp_all, by simpa using h.symm⟩

theorem runningCommand_idle {s : State} (h : s.phase = .idle) : runningCommand s = none := by
  simp [runningCommand, h]

theorem runningCommand_busy {s : State} (h : s.phase = .busy) :
    runningCommand s = commandOf s.latch.op := by
  simp [runningCommand, h]

end Sys2Proof.Machine
end

