-- ==== Sys2Proof/Laws/PerInstr.lean ====
section
/-! SUPPORT. The per-command family `Encoding`: each command's word is well formed, is read back as that command
by every decoder, and carries its opcode (30_encoding.md R90 to R93). -/

namespace Sys2Proof.Laws.Encoding

/-- What the encoding of a command keeps. -/
def Statement (i : Instr) : Prop :=
  i.wellFormed = true ∧ commandWordWellFormed (encode i) = true ∧ decode (encode i) = .ok i ∧
    decodeTableWord 32 (encode i).toNat = some i ∧ reservedField (encode i) = 0 ∧
    commandOf (opField (encode i)) = some i

theorem nop : Statement .nop := by unfold Statement; decide
theorem cscFwd : Statement .cscFwd := by unfold Statement; decide
theorem cscInv : Statement .cscInv := by unfold Statement; decide
theorem repack : Statement .repack := by unfold Statement; decide

end Sys2Proof.Laws.Encoding
end

