-- ==== Sys2Proof/Laws/Step.lean ====
section
/-! SUPPORT. Everything one step can do, said once (`StepTo`, `step_next`): each later fact about all steps is a
case analysis on it. -/

namespace Sys2Proof.Machine

/-! ## The register map -/

@[simp] theorem regAt_regOffset (r : Reg) : regAt (regOffset r) = some r := by cases r <;> decide

theorem regAt_some {o : Byte} {r : Reg} (h : regAt o = some r) : o = regOffset r := by
  have := List.find?_some h
  simpa using (by simpa using this : regOffset r = o).symm

@[simp] theorem accessDefined_regOffset (r : Reg) : accessDefined (regOffset r) 4 = true := by
  cases r <;> decide

theorem accessDefined_iff (o : Byte) (n : Nat) : accessDefined o n = true ↔ n = 4 ∧ o.toNat % 4 = 0 := by
  simp [accessDefined]

/-- A write of a configuration register. -/
theorem writeReg_config (r : Reg) (v : Word) (s : State) (h1 : r ≠ .ctrl) (h2 : r ≠ .status)
    (h3 : r ≠ .cmd) : writeReg r v s = .next (writeConfig r v s) := by
  cases r <;> simp_all [writeReg]

/-! ## Encoding -/

/-- A word the decoder recognises is its command's word (30_encoding.md R92). -/
theorem eq_encode_of_decode {w : Word} {i : Instr} (h : decode w = .ok i) : w = encode i := by
  unfold decode at h
  split at h
  · rename_i hr
    split at h
    · rename_i j hj
      simp only [Except.ok.injEq] at h
      subst h
      have hw : w = (reservedField w ++ opField w).cast (by decide) := by
        simp only [reservedField, opField]
        ext k hk
        simp only [BitVec.getElem_cast, BitVec.getElem_append, BitVec.getElem_extractLsb']
        split
        · simp [← BitVec.getLsbD_eq_getElem]
        · rename_i hk4
          rw [show 4 + (k - 4) = k by omega]
          simp [← BitVec.getLsbD_eq_getElem]
      unfold commandOf at hj
      split at hj
      · rename_i ho; simp only [Option.some.injEq] at hj; subst hj; rw [hw, hr, ho]; decide
      · split at hj
        · rename_i ho; simp only [Option.some.injEq] at hj; subst hj; rw [hw, hr, ho]; decide
        · split at hj
          · rename_i ho; simp only [Option.some.injEq] at hj; subst hj; rw [hw, hr, ho]; decide
          · split at hj
            · rename_i ho; simp only [Option.some.injEq] at hj; subst hj; rw [hw, hr, ho]; decide
            · exact absurd hj (by simp)
    · exact absurd h (by simp)
  · exact absurd h (by simp)

/-! ## The CMD write -/

/-- In Idle a CMD write of any word is its acceptance (43_control.md R170). -/
theorem writeCmd_idle (w : Word) (s : State) (h : s.phase = .idle) : writeCmd w s = accept w s := by
  simp only [writeCmd, h]
  split
  · rename_i i hi
    rw [exec_idle i s h, eq_encode_of_decode hi]
  · rfl

/-- In Busy a CMD write is dropped (43_control.md R171). -/
theorem writeCmd_busy (w : Word) (s : State) (h : s.phase = .busy) :
    writeCmd w s = .next (setCmdLost s) := by
  simp [writeCmd, h]

/-! ## Steps -/

theorem step_input {s : State} {e : Input} {rest : List Input} (h : s.inputs = e :: rest) :
    step s = applyInput e { s with inputs := rest } := by
  simp [step, h]

/-- The engine's turn, whether it is given or comes from an empty list. -/
theorem step_engine {s : State} (h : engineNext s) :
    step s = engineTurn { s with inputs := s.inputs.tail } := by
  rcases hl : s.inputs with - | ⟨e, rest⟩
  · have hs : { s with inputs := s.inputs.tail } = s := by cases s; simp_all
    simp only [hl, List.tail_nil] at hs ⊢
    simp [step, hl, hs]
  · rcases h with h | h
    · simp [hl] at h
    · simp only [hl, List.head?_cons, Option.some.injEq] at h
      subst h
      simp [step, hl, applyInput]

/-- The states a step can lead to, one constructor for each thing a step can do. -/
inductive StepTo (s : State) : State → Prop where
  | engineIdle (hn : engineNext s) (hp : s.phase = .idle) : StepTo s { s with inputs := s.inputs.tail }
  | engineBusy (i : Instr) (hn : engineNext s) (hp : s.phase = .busy) (hc : commandOf s.latch.op = some i)
      (hr : (footprints i s.latch).any (fun f => !f.inRange) = false)
      (hf : footprintRefusal s.platform (footprints i s.latch) = none) :
      StepTo s (completion i (performCells i) { s with inputs := s.inputs.tail })
  | regReadStatus (rest : List Input) (hi : s.inputs = .regRead (regOffset .status) 4 :: rest) :
      StepTo s { s with
        inputs := rest
        reply := .word (statusWord s)
        awaited := (observeStatus { s with inputs := rest }).awaited
        unobserved := (observeStatus { s with inputs := rest }).unobserved }
  | regReadOther (o : Byte) (v : Word) (rest : List Input) (hi : s.inputs = .regRead o 4 :: rest)
      (ho : regAt o ≠ some .status) : StepTo s { s with inputs := rest, reply := .word v }
  | writeHeldOff (o : Byte) (v : Word) (rest : List Input) (hi : s.inputs = .regWrite o 4 v :: rest)
      (hr : s.rst = true) : StepTo s { s with inputs := rest }
  | writeReserved (o : Byte) (v : Word) (rest : List Input) (hi : s.inputs = .regWrite o 4 v :: rest)
      (hr : s.rst = false) (ho : regAt o = none) : StepTo s { s with inputs := rest }
  | ctrlWrite (v : Word) (rest : List Input) (hi : s.inputs = .regWrite (regOffset .ctrl) 4 v :: rest)
      (hr : s.rst = false) : StepTo s (writeCtrl v { s with inputs := rest })
  | statusWrite (v : Word) (rest : List Input) (hi : s.inputs = .regWrite (regOffset .status) 4 v :: rest)
      (hr : s.rst = false) : StepTo s (writeStatus v { s with inputs := rest })
  | configWrite (r : Reg) (v : Word) (rest : List Input) (hi : s.inputs = .regWrite (regOffset r) 4 v :: rest)
      (hr : s.rst = false) (h1 : r ≠ .ctrl) (h2 : r ≠ .status) (h3 : r ≠ .cmd) :
      StepTo s (writeConfig r v { s with inputs := rest })
  | cmdDropped (w : Word) (rest : List Input) (hc : cmdWriteNext w rest s) (hp : s.phase = .busy) :
      StepTo s (setCmdLost { s with inputs := rest })
  | cmdIllegal (w : Word) (rest : List Input) (hc : cmdWriteNext w rest s) (hp : s.phase = .idle)
      (e : DecodeError) (hd : decode w = .error e) :
      StepTo s (raiseError .badCmd (beginAccept w { s with inputs := rest }))
  | cmdRejected (w : Word) (rest : List Input) (hc : cmdWriteNext w rest s) (hp : s.phase = .idle)
      (i : Instr) (hd : decode w = .ok i) (hk : checkCommand i (latchOperands w s.regs) ≠ .none) :
      StepTo s (raiseError (checkCommand i (latchOperands w s.regs)) (beginAccept w { s with inputs := rest }))
  | cmdNop (w : Word) (rest : List Input) (hc : cmdWriteNext w rest s) (hp : s.phase = .idle)
      (hd : decode w = .ok .nop) : StepTo s (setDone (beginAccept w { s with inputs := rest }))
  | cmdStarted (w : Word) (rest : List Input) (hc : cmdWriteNext w rest s) (hp : s.phase = .idle)
      (i : Instr) (hn : i ≠ .nop) (hd : decode w = .ok i)
      (hk : checkCommand i (latchOperands w s.regs) = .none)
      (hf : footprintRefusal s.platform (footprints i (latchOperands w s.regs)) = none) :
      StepTo s (startEngine i (beginAccept w { s with inputs := rest }))
  | memReadAny (a : Word) (c : Bool) (rest : List Input) (hi : s.inputs = .memRead a c :: rest) :
      StepTo s (replyAny a.toNat { s with inputs := rest })
  | memReadValue (a : Word) (c : Bool) (rest : List Input) (hi : s.inputs = .memRead a c :: rest) :
      StepTo s { s with inputs := rest, reply := .byte (s.mem.read a.toNat) }
  | memWriteValue (a : Word) (v : Byte) (c : Bool) (rest : List Input)
      (hi : s.inputs = .memWrite a v c :: rest) :
      StepTo s { s with inputs := rest, taint := taintedBy a.toNat s, mem := s.mem.write a.toNat v }
  | memWriteAny (a : Word) (v : Byte) (c : Bool) (rest : List Input)
      (hi : s.inputs = .memWrite a v c :: rest) :
      StepTo s (drawBytes [a.toNat] { s with inputs := rest, taint := taintedBy a.toNat s })
  | resetIdle (rest : List Input) (hi : s.inputs = .rstAssert :: rest) (hc : runningCommand s = none) :
      StepTo s { blockReset { s with inputs := rest } with rst := true }
  | resetBusy (rest : List Input) (hi : s.inputs = .rstAssert :: rest) (i : Instr)
      (hc : runningCommand s = some i) (hr : (writeFootprints i s.latch).any (fun f => !f.inRange) = false) :
      StepTo s { blockReset (abandon (footprintAddresses (writeFootprints i s.latch))
        { s with inputs := rest }) with rst := true }
  | released (rest : List Input) (hi : s.inputs = .rstRelease :: rest) :
      StepTo s { s with inputs := rest, rst := false }

/-- The engine's turn, where it answers a next state. -/
theorem stepTo_engine {s t : State} (hn : engineNext s)
    (h : engineTurn { s with inputs := s.inputs.tail } = .next t) : StepTo s t := by
  unfold engineTurn at h
  split at h
  · rename_i hp
    obtain rfl : _ = t := by simpa using h
    exact .engineIdle hn hp
  · rename_i hp
    split at h
    · rename_i i hc
      rw [exec_busy i _ hp] at h
      obtain ⟨hr, hf, rfl⟩ := complete_cases h
      exact .engineBusy i hn hp (by simpa [runningCommand_busy hp] using hc) hr hf
    · exact absurd h (by simp)

/-- A CMD write in Idle, where it answers a next state. -/
theorem stepTo_accept {s t : State} {w : Word} {rest : List Input} (hc : cmdWriteNext w rest s)
    (hp : s.phase = .idle) (h : accept w { s with inputs := rest } = .next t) : StepTo s t := by
  rcases accept_cases h with ⟨e, hd, rfl⟩ | ⟨i, hd, hk, rfl⟩ | ⟨hd, rfl⟩ | ⟨i, hn, hd, hk, hf, rfl⟩
  · exact .cmdIllegal w rest hc hp e hd
  · exact .cmdRejected w rest hc hp i hd hk
  · exact .cmdNop w rest hc hp hd
  · exact .cmdStarted w rest hc hp i hn hd hk hf

/-- A register write, where it answers a next state. -/
theorem stepTo_regWrite {s t : State} {o : Byte} {n : Nat} {v : Word} {rest : List Input}
    (hi : s.inputs = .regWrite o n v :: rest)
    (h : hostRegWrite o n v { s with inputs := rest } = .next t) : StepTo s t := by
  unfold hostRegWrite at h
  split at h
  · exact absurd h (by simp)
  · rename_i ha
    obtain ⟨rfl, -⟩ := (accessDefined_iff o n).1 (by simpa using ha)
    split at h
    · rename_i hr
      obtain rfl : _ = t := by simpa using h
      exact .writeHeldOff o v rest hi hr
    · rename_i hr
      have hr : s.rst = false := by simpa using hr
      split at h
      · rename_i ho
        obtain rfl : _ = t := by simpa using h
        exact .writeReserved o v rest hi hr ho
      · rename_i r ho
        obtain rfl := regAt_some ho
        by_cases h1 : r = .ctrl
        · subst h1
          obtain rfl : _ = t := by simpa [writeReg] using h
          exact .ctrlWrite v rest hi hr
        by_cases h2 : r = .status
        · subst h2
          obtain rfl : _ = t := by simpa [writeReg] using h
          exact .statusWrite v rest hi hr
        by_cases h3 : r = .cmd
        · subst h3
          simp only [writeReg] at h
          cases hp : s.phase
          · rw [writeCmd_idle v _ (by exact hp)] at h
            exact stepTo_accept ⟨hr, hi⟩ hp h
          · rw [writeCmd_busy v _ (by exact hp)] at h
            obtain rfl : _ = t := by simpa using h
            exact .cmdDropped v rest ⟨hr, hi⟩ hp
        · rw [writeReg_config r v _ h1 h2 h3] at h
          obtain rfl : _ = t := by simpa using h
          exact .configWrite r v rest hi hr h1 h2 h3

/-- A register read, where it answers a next state. -/
theorem stepTo_regRead {s t : State} {o : Byte} {n : Nat} {rest : List Input}
    (hi : s.inputs = .regRead o n :: rest) (h : hostRegRead o n { s with inputs := rest } = .next t) :
    StepTo s t := by
  unfold hostRegRead at h
  split at h
  · exact absurd h (by simp)
  · rename_i ha
    obtain ⟨rfl, -⟩ := (accessDefined_iff o n).1 (by simpa using ha)
    by_cases ho : regAt o = some .status
    · obtain rfl := regAt_some ho
      obtain rfl : _ = t := by simpa [readWord, readReg] using h
      exact .regReadStatus rest hi
    · obtain rfl : _ = t := by simpa [ho] using h
      exact .regReadOther o _ rest hi ho

/-- A host memory read, where it answers a next state. -/
theorem stepTo_memRead {s t : State} {a : Word} {c : Bool} {rest : List Input}
    (hi : s.inputs = .memRead a c :: rest) (h : hostMemRead a c { s with inputs := rest } = .next t) :
    StepTo s t := by
  simp only [hostMemRead] at h
  split at h
  · exact absurd h (by simp)
  · split at h
    · obtain rfl : _ = t := by simpa using h
      exact .memReadAny a c rest hi
    · obtain rfl : _ = t := by simpa using h
      exact .memReadValue a c rest hi

/-- A host memory write, where it answers a next state. -/
theorem stepTo_memWrite {s t : State} {a : Word} {v : Byte} {c : Bool} {rest : List Input}
    (hi : s.inputs = .memWrite a v c :: rest) (h : hostMemWrite a v c { s with inputs := rest } = .next t) :
    StepTo s t := by
  simp only [hostMemWrite] at h
  split at h
  · exact absurd h (by simp)
  · split at h
    · obtain rfl : _ = t := by simpa using h
      exact .memWriteValue a v c rest hi
    · obtain rfl : _ = t := by simpa using h
      exact .memWriteAny a v c rest hi

/-- Everything a step can do, where it answers a next state. -/
theorem step_next {s t : State} (h : step s = .next t) : StepTo s t := by
  rcases hl : s.inputs with - | ⟨e, rest⟩
  · exact stepTo_engine (.inl hl) (step_engine (.inl hl) ▸ h)
  · rw [step_input hl] at h
    cases e with
    | engine =>
      have hn : engineNext s := .inr (by simp [hl])
      refine stepTo_engine hn ?_
      simpa [hl, applyInput] using h
    | regRead o n => exact stepTo_regRead hl h
    | regWrite o n v => exact stepTo_regWrite hl h
    | memRead a c => exact stepTo_memRead hl h
    | memWrite a v c => exact stepTo_memWrite hl h
    | rstAssert =>
      rcases assertReset_cases h with ⟨hc, rfl⟩ | ⟨i, hc, hr, rfl⟩
      · exact .resetIdle rest hl hc
      · exact .resetBusy rest hl i hc hr
    | rstRelease =>
      obtain rfl : _ = t := by simpa [applyInput] using h
      exact .released rest hl

end Sys2Proof.Machine
end

