-- ==== Sys2Proof/Laws/Running.lean ====
section
/-! SUPPORT. What the engine does with an accepted command, and that a plane's samples have distinct addresses:
the facts a proof about completion starts from. -/

namespace Sys2Proof.Machine

/-- The memory after reset has the canonical form. -/
theorem reset_mem_wf : State.reset.mem.wf := by
  constructor <;> simp [State.reset]

/-- A command other than NOP that checks out has a nonzero size, strides at or above their minimums, and
footprints in range (60_exceptions.md R181). -/
theorem check_none {i : Instr} {l : Latched} (hn : i ≠ .nop) (h : checkCommand i l = .none) :
    ¬(l.W = 0 ∨ l.H = 0) ∧ (strideReq i l).any (fun p => decide (p.1 < p.2)) = false ∧
      (footprints i l).any (fun f => !f.inRange) = false := by
  unfold checkCommand at h
  rw [if_neg hn] at h
  split at h
  · exact absurd h (by simp)
  split at h
  · exact absurd h (by simp)
  split at h
  · exact absurd h (by simp)
  · refine ⟨‹_›, ?_, ?_⟩ <;> simp_all

/-- The write footprints are in range where all are. -/
theorem write_inRange {i : Instr} {l : Latched} (h : (footprints i l).any (fun f => !f.inRange) = false) :
    (writeFootprints i l).any (fun f => !f.inRange) = false := by
  rw [footprints, List.any_append, Bool.or_eq_false_iff] at h
  exact h.2

/-- A legal running command is some accepted command. -/
theorem accepted_of_legal {s : State} (h : runningLegal s) (hp : s.phase = .busy) :
    ∃ i, acceptedAs i s := by
  rcases h hp with h | h | h <;> exact ⟨_, h⟩

/-- An accepted command's completion is its three-way step, and no stop. -/
theorem exec_accepted {i : Instr} {s : State} (h : runningAs i s) :
    exec i s = .next (completion i (performCells i) s) := by
  obtain ⟨hp, hn, -, hk, hf, -⟩ := h
  rw [exec_busy i s hp]
  simp [complete, (check_none hn hk).2.2, hf]

theorem runningCommand_accepted {i : Instr} {s : State} (h : runningAs i s) : runningCommand s = some i := by
  rw [runningCommand_busy h.1]; exact h.2.2.1

/-- The engine's turn completes the accepted command. -/
theorem engineTurn_accepted {i : Instr} {s : State} (h : runningAs i s) : engineTurn s = exec i s := by
  simp only [engineTurn, h.1, runningCommand_accepted h]

theorem unsettled_accepted {i : Instr} {s : State} (h : runningAs i s) (a : Nat) :
    unsettled s a = inFootprints (writeFootprints i s.latch) a := by
  simp only [unsettled, runningWrites, h.1, runningCommand_accepted h]

/-- In Idle an unsettled byte is one of the ghost. -/
theorem unsettled_idle {s : State} (h : s.phase = .idle) (a : Nat) :
    unsettled s a = true ↔ a ∈ footprintAddresses s.awaited ∨ a ∈ s.unobserved := by
  simp [unsettled, h, inFootprints_iff]

/-- A host write taints where the block is tainted already, or the byte is in the running command's footprints
(70_reset_and_hazards.md R215). -/
theorem taintedBy_iff (a : Nat) (s : State) : taintedBy a s = true ↔ s.taint = true ∨
    ∃ i, runningCommand s = some i ∧ a ∈ footprintAddresses (footprints i s.latch) := by
  simp only [taintedBy, runningReads, runningWrites, Bool.or_eq_true, inFootprints_iff]
  cases runningCommand s <;> simp [footprintAddresses, footprints, or_assoc]

/-- Losing an outcome changes what no host read in Idle returns. -/
theorem unsettled_loseOutcome {s : State} (h : s.phase = .idle) (a : Nat) :
    unsettled (loseOutcome s) a = unsettled s a := by
  rw [Bool.eq_iff_iff, unsettled_idle h, unsettled_idle (by exact h)]
  simp [footprintAddresses]

theorem busAccepts_of_answers {i : Instr} {s : State} (h : busAnswersOK i s) :
    busAccepts s.platform i s.latch = true := by
  simp only [busAccepts, Bool.and_eq_true, List.all_eq_true]; exact h

/-- A command that runs cleanly performs its effect (43_control.md R172, third branch). -/
theorem exec_clean {i : Instr} {s : State} (h : runsCleanly i s) :
    exec i s = .next (setDone
      { s with mem := s.mem.writeAll (performCells i s.latch s.mem.read), phase := .idle }) := by
  obtain ⟨h1, h2, h3, h4⟩ := h
  rw [exec_accepted h1]
  rcases completion_cases i (performCells i) s with ⟨a, _⟩ | ⟨_, a, _⟩ | ⟨_, _, _, e⟩
  · rw [busAccepts_of_answers h2] at a; exact absurd a (by simp)
  · exact absurd a (by simp [h3, h4])
  · rw [e]

/-- What a completion leaves alone. -/
theorem completion_frame (i : Instr) (e : Latched → (Nat → Byte) → List Host.Cell) (s : State) :
    completion i e s = { s with
      mem := (completion i e s).mem
      draws := (completion i e s).draws
      status := (completion i e s).status
      phase := .idle } := by
  rcases completion_cases i e s with ⟨_, h⟩ | ⟨_, _, h⟩ | ⟨_, _, _, h⟩ <;> rw [h] <;> rfl

/-- A completion does not look at the pending inputs. -/
theorem completion_inputs (i : Instr) (e : Latched → (Nat → Byte) → List Host.Cell) (s : State)
    (l : List Input) : completion i e { s with inputs := l } = { completion i e s with inputs := l } := by
  unfold completion
  simp only
  split
  · rfl
  · split <;> rfl

/-- Rows at least as long as their samples never share an address (20_memory.md R68). -/
theorem planeAddress_injective {b s : Word} {u k r c r' c' ch ch' : Nat} (hs : u * k ≤ s.toNat) (hc : c < k)
    (hc' : c' < k) (h1 : ch < u) (h2 : ch' < u)
    (h : planeAddress b s u r c + ch = planeAddress b s u r' c' + ch') : r = r' ∧ c = c' ∧ ch = ch' := by
  simp only [planeAddress] at h
  have e1 := Nat.mul_le_mul_left u (Nat.succ_le_of_lt hc)
  have e2 := Nat.mul_le_mul_left u (Nat.succ_le_of_lt hc')
  rw [Nat.mul_succ] at e1 e2
  have hr : r = r' := by
    rcases Nat.lt_trichotomy r r' with hlt | heq | hgt
    · have := Nat.mul_le_mul_right s.toNat (Nat.succ_le_of_lt hlt); rw [Nat.succ_mul] at this; omega
    · exact heq
    · have := Nat.mul_le_mul_right s.toNat (Nat.succ_le_of_lt hgt); rw [Nat.succ_mul] at this; omega
  subst hr
  have hcc : c = c' := by
    rcases Nat.lt_trichotomy c c' with hlt | heq | hgt
    · have := Nat.mul_le_mul_left u (Nat.succ_le_of_lt hlt); rw [Nat.mul_succ] at this; omega
    · exact heq
    · have := Nat.mul_le_mul_left u (Nat.succ_le_of_lt hgt); rw [Nat.mul_succ] at this; omega
  subst hcc
  exact ⟨rfl, rfl, by omega⟩

/-- A label or a branch does the same whatever the machine's last reply. -/
theorem absorb_local (p : List HostOp) (op : HostOp) (r : Reply) (h : HostCtl) (hi : inputOf op = none) :
    absorb p op r h = absorb p op .noRead h := by
  cases op <;> first | rfl | simp [inputOf] at hi

/-- A host turn after the end of a run leaves the machine as it is, and the run ended (43_control.md R177). -/
theorem hostTurn_ended {p : List HostOp} {y : System} (h : programRunEnded p y) :
    ∃ y', hostTurn p y = .next y' ∧ y'.machine = y.machine ∧ programRunEnded p y' := by
  unfold hostTurn
  cases ho : p[y.host.pc]? with
  | none => exact ⟨y, rfl, rfl, h⟩
  | some op =>
    have h0 : inputOf op = none := by simpa [localActions, atTransaction, ho] using h.1 0
    simp only [h0]
    refine ⟨_, rfl, rfl, fun n => ?_, h.2⟩
    rw [absorb_local p op y.machine.reply y.host h0]
    simpa only [localActions, ho] using h.1 (n + 1)

/-- A run's next step. -/
theorem run_succ {k : Nat} {s t : State} (h : step s = .next t) :
    Sys2Proof.core.run (k + 1) s = Sys2Proof.core.run k t := by
  simp only [Host.Core.run, show Sys2Proof.core.step s = step s from rfl, h]

end Sys2Proof.Machine
end

