-- ==== Sys2Proof/Tests/Slice0.lean ====
section
/-! SUPPORT. The model's own tests. `test_…`: words written from 30_encoding.md R90 and R91, ill-formed words, and
expected results from the vectors and programs of 95_test_vectors.md. `witness_…`: for each obligation with
hypotheses, a concrete state and operands that meet them. -/

namespace Sys2Proof.Tests

-- One theorem at a time: each `decide +kernel` checked beside the others takes a thread of its own.
set_option Elab.async false

open Sys2Proof.Machine

/-! ## Small states -/

/-- A property of a next state; false at a stop. -/
def after (o : Out) (p : State → Bool) : Bool :=
  match o with
  | .next t => p t
  | .fault _ => false
  | .refused _ => false

/-- `after` speaks of a next state. -/
theorem after_next {o : Out} {p : State → Bool} (h : after o p = true) : ∃ t, o = .next t ∧ p t = true := by
  cases o with
  | next t => exact ⟨t, rfl, h⟩
  | fault f => exact absurd h (by simp [after])
  | refused r => exact absurd h (by simp [after])

/-- A platform that accepts every access, with no window in system memory. -/
def quiet : Platform :=
  { readErrors := [], writeErrors := [], devices := [], regBase := none, hostCoherent := true }

/-- Right after reset, on that platform. -/
def idle0 : State := { State.reset with platform := quiet }

/-- The planes of 95_test_vectors.md P1, with source planes for the other commands. -/
def planes0 : Planes :=
  { Planes.reset with
    rgbaBase := 0x1000, rgbaStride := 8, dstYBase := 0x2000, dstUBase := 0x2004, dstVBase := 0x2005,
    dstYStride := 2, dstUVStride := 1, srcYBase := 0x3000, srcUBase := 0x3004, srcVBase := 0x3005,
    srcYStride := 2, srcUVStride := 1 }

/-- The bytes of a row, listed from an address. -/
def cellsAt (a : Nat) (bytes : List Byte) : List Host.Cell :=
  bytes.mapIdx fun k b => (a + k, b)

/-- The picture of P1 in every source plane, and the destination bytes of P1. -/
def mem0 : Memory :=
  cellsAt 0x1000 [0xFF, 0x00, 0x00, 0x11, 0x00, 0xFF, 0x00, 0x22, 0x00, 0x00, 0xFF, 0x33, 0xFF, 0xFF, 0xFF, 0x44]
    ++ cellsAt 0x2000 [0xEE, 0xEE, 0xEE, 0xEE, 0xEE, 0xEE, 0xEE, 0xEE]
    ++ cellsAt 0x3000 [0x7E, 0x00, 0x91, 0x29, 0x5A, 0xF0]

/-- Idle, configured for a 2 × 2 picture. -/
def idle2 : State :=
  { idle0 with regs := { dim := 0x00020002, planes := planes0 }, mem := mem0 }

/-- A command running on the configuration of a state. -/
def running (i : Instr) (s : State) : State :=
  { s with
    phase := .busy
    status := { s.status with lastOp := opField (encode i) }
    latch := latchOperands (encode i) s.regs
    awaited := writeFootprints i (latchOperands (encode i) s.regs) }

/-- `s` with other planes. -/
def withPlanes (s : State) (p : Planes) : State := { s with regs := { s.regs with planes := p } }

/-- REPACK onto its own source. -/
def inPlace : State :=
  withPlanes idle2 { planes0 with srcYBase := 0x2000, srcUBase := 0x2004, srcVBase := 0x2005 }

/-- A 3 × 3 picture for every command, strides above their minimums. -/
def idle3 : State :=
  { idle0 with regs :=
    { dim := 0x00030003,
      planes :=
        { Planes.reset with
          rgbaBase := 0x7000, rgbaStride := 13, dstYBase := 0x8000, dstUBase := 0x8100, dstVBase := 0x8200,
          dstYStride := 5, dstUVStride := 4, srcYBase := 0x9000, srcUBase := 0x9100, srcVBase := 0x9200,
          srcYStride := 3, srcUVStride := 2 } } }

/-- A platform where every access at one address fails in one direction. -/
def failsRead (a : Nat) : Platform := { quiet with readErrors := [{ first := a, last := a }] }
def failsWrite (a : Nat) : Platform := { quiet with writeErrors := [{ first := a, last := a }] }

/-- `s` with one pending input. -/
def given (e : Input) (s : State) : State := { s with inputs := [e] }

/-! ## Decoding, from words written bit by bit -/

/-- R91: OP = 0x0. -/
theorem test_word_nop : decode 0b00000000000000000000000000000000 = .ok .nop := by decide
/-- R91: OP = 0x1. -/
theorem test_word_csc_fwd : decode 0b00000000000000000000000000000001 = .ok .cscFwd := by decide
/-- R91: OP = 0x2. -/
theorem test_word_csc_inv : decode 0b00000000000000000000000000000010 = .ok .cscInv := by decide
/-- R91: OP = 0x3. -/
theorem test_word_repack : decode 0b00000000000000000000000000000011 = .ok .repack := by decide
/-- R67: the lowest byte comes first, and the bytes after the word are left. -/
theorem test_bytes_repack : decodeBytes [0x03, 0x00, 0x00, 0x00, 0xAA] = .ok (.repack, [0xAA]) := by decide
/-- R93: fewer than four bytes are no command word. -/
theorem test_bytes_truncated : decodeBytes [0x03, 0x00, 0x00] = .error .truncated := by decide
/-- R67: the first byte is not the highest. -/
theorem test_bytes_order : decodeBytes [0x00, 0x00, 0x00, 0x01] = .error .reservedBits := by decide
theorem test_table_csc_fwd : decodeTableWord 32 1 = some .cscFwd := by decide

/-! ## Well-formedness, with an ill-formed word for each check -/

theorem test_wf_words : commandWordWellFormed 0x0 = true ∧ commandWordWellFormed 0x3 = true := by decide
/-- R92: a reserved bit, the lowest and the highest. -/
theorem test_wf_reserved_bits :
    reservedBitsZero 0x00000010 = false ∧ reservedBitsZero 0x80000001 = false ∧
      commandWordWellFormed 0x00000010 = false ∧ commandWordWellFormed 0x80000001 = false := by decide
/-- R91: the reserved opcodes at both ends. -/
theorem test_wf_reserved_opcodes :
    opcodeAssigned 0x4 = false ∧ opcodeAssigned 0xF = false ∧ commandWordWellFormed 0x4 = false ∧
      commandWordWellFormed 0xF = false := by decide
theorem test_decode_reserved_bits : decode 0x00000010 = .error .reservedBits ∧
    decode 0x80000000 = .error .reservedBits := by decide
theorem test_decode_reserved_opcodes : decode 0x4 = .error .reservedOpcode ∧
    decode 0xF = .error .reservedOpcode := by decide

/-! ## Pixel arithmetic, 95_test_vectors.md 2.1 and 2.2 -/

/-- 2.1: the row 200,100,50, every sum and result. -/
theorem test_forward_row : lumaSum 200 100 50 = 27478 ∧ cbSum 200 100 50 = -9272 ∧ crSum 200 100 50 = 12228 ∧
    lumaF 200 100 50 = 123 ∧ cbF 200 100 50 = 91 ∧ crF 200 100 50 = 175 := by decide
/-- 2.1: the rows yellow and cyan, the minimum of U and of V. -/
theorem test_forward_extremes : cbSum 255 255 0 = -28432 ∧ cbF 255 255 0 = 16 ∧ crF 255 255 0 = 146 ∧
    crSum 0 255 255 = -28432 ∧ cbF 0 255 255 = 166 ∧ crF 0 255 255 = 16 := by decide
/-- 2.1: the floor shift, 4,0,0. -/
theorem test_forward_floor : cbSum 4 0 0 = -24 ∧ cbF 4 0 0 = 127 ∧ crF 4 0 0 = 130 := by decide
/-- 2.2: the row 255,255,255, the maximum sums. -/
theorem test_inverse_maximum : redSum 255 255 255 = 123293 ∧ greenSum 255 255 255 = 32234 ∧
    blueSum 255 255 255 = 136882 ∧ redF 255 255 255 = 255 ∧ greenF 255 255 255 = 125 ∧
    blueF 255 255 255 = 255 := by decide
/-- 2.2: the row 100,200,50, a negative sum clamped to 0. -/
theorem test_inverse_row : redSum 100 200 50 = -6742 ∧ greenSum 100 200 50 = 34184 ∧
    blueSum 100 200 50 = 62312 ∧ redF 100 200 50 = 0 ∧ greenF 100 200 50 = 133 ∧ blueF 100 200 50 = 243 := by
  decide

/-! ## One step of each command -/

/-- P1: the completion of its CSC_FWD, and the two bytes beyond the planes. -/
theorem test_csc_fwd_p1 : after (exec .cscFwd (running .cscFwd idle2)) (fun t =>
    ([0, 1, 2, 3, 4, 5, 6, 7].map fun k => t.mem.read (0x2000 + k))
      == [0x52, 0x90, 0x29, 0xEB, 0x5A, 0xF0, 0xEE, 0xEE] && statusWord t == 0x00001002) = true := by
  decide +kernel
/-- 2.3: the accepted CSC_FWD at the top of memory, and the one byte more that is out of range. -/
theorem test_csc_fwd_top : after (exec .cscFwd { idle0 with regs := { dim := 0x00020004, planes :=
      { planes0 with rgbaStride := 16, dstYBase := 0xFFFFFFF8, dstYStride := 4, dstUVStride := 2 } } })
    (fun t => statusWord t == 0x00001001) = true ∧
    after (exec .cscFwd { idle0 with regs := { dim := 0x00020004, planes :=
      { planes0 with rgbaStride := 16, dstYBase := 0xFFFFFFFC, dstYStride := 4, dstUVStride := 2 } } })
    (fun t => statusWord t == 0x00001404) = true := by decide +kernel
/-- P2: the values of pixels with U, V = 90, 240 and Y = 126, 0, 145, 41. -/
theorem test_csc_inv_p2 : after (exec .cscInv (running .cscInv idle2)) (fun t =>
    ([0, 1, 2, 3, 4, 5, 6, 7].map fun k => t.mem.read (0x1000 + k))
      == [0xFF, 0x34, 0x33, 0xFF, 0xA0, 0x00, 0x00, 0xFF] &&
    ([0, 1, 2, 3, 4, 5, 6, 7].map fun k => t.mem.read (0x1008 + k))
      == [0xFF, 0x4A, 0x4A, 0xFF, 0xD0, 0x00, 0x00, 0xFF] && statusWord t == 0x00002002) = true := by
  decide +kernel
/-- 2.3: CSC_INV with source strides of 0. -/
theorem test_csc_inv_stride : after (exec .cscInv { idle0 with regs :=
      { dim := 0x00020004, planes := Planes.reset } }) (fun t => statusWord t == 0x00002304) = true := by
  decide +kernel
/-- R150: a tight copy, source and destination strides equal, padding bytes untouched. -/
theorem test_repack_copy : after (exec .repack (running .repack idle2)) (fun t =>
    ([0, 1, 2, 3, 4, 5, 6, 7].map fun k => t.mem.read (0x2000 + k))
      == [0x7E, 0x00, 0x91, 0x29, 0x5A, 0xF0, 0xEE, 0xEE] && statusWord t == 0x00003002) = true := by
  decide +kernel
/-- 2.3: strides are checked even for H = 1. -/
theorem test_repack_stride : after (exec .repack { idle0 with regs :=
      { dim := 0x00010001, planes := Planes.reset } }) (fun t => statusWord t == 0x00003304) = true := by
  decide +kernel
/-- 2.3: NOP right after reset. -/
theorem test_nop_after_reset : after (exec .nop idle0) (fun t => statusWord t == 0x00000002) = true := by
  decide +kernel
/-- R171, P5 schedule A: a CMD write in Busy. -/
theorem test_nop_dropped : after (step (given (cmdInput 0x0) (running .cscInv idle2)))
    (fun t => statusWord t == 0x00002009 && t.phase == .busy) = true := by decide +kernel
/-- 2.3: the illegal words 0x8000_0000 and 0x7. -/
theorem test_bad_cmd : after (step (given (cmdInput 0x80000000) idle0)) (fun t => statusWord t == 0x00000104) = true ∧
    after (step (given (cmdInput 0x7) idle0)) (fun t => statusWord t == 0x00007104) = true := by decide +kernel
/-- withFetchWord puts a command where the next step takes it. -/
theorem test_fetch_word : after (step (State.reset.withFetchWord 32 3)) (fun t => statusWord t == 0x00003204) = true := by
  decide +kernel

/-! ## Registers, 95_test_vectors.md 2.5 -/

/-- 2.5: a write of STATUS that clears ERR, and one that clears nothing. -/
theorem test_status_w1c :
    statusWord (writeStatus 0x4 { idle0 with status := { Status.reset with err := true, errCode := .badDim, lastOp := 1 } })
      = 0x00001000 ∧
    statusWord (writeStatus 0x1 { idle0 with status := { Status.reset with done := true, lastOp := 1 } })
      = 0x00001002 := by decide
/-- 2.5: CTRL stores one bit; the reserved offset 0x40 and CMD read 0. -/
theorem test_ctrl_reads : readWord 0x00 (writeCtrl 0xFFFFFFFF idle0) = 1 ∧ readWord 0x40 idle2 = 0 ∧
    readWord 0x08 idle2 = 0 := by decide
/-- R22, R35: DIM holds all its bits. -/
theorem test_dim_write : after (step (given (.regWrite 0x0C 4 0xFFFFFFFF) idle2))
    (fun t => readWord 0x0C t == 0xFFFFFFFF && readWord 0x10 t == 0x00001000) = true := by decide +kernel
/-- 2.5: a 16-bit read of STATUS and a 32-bit read at offset 0x02 are refused. -/
theorem test_bad_accesses : step (given (.regRead 0x04 2) idle0) = .refused .hostAccessFault ∧
    step (given (.regRead 0x02 4) idle0) = .refused .hostAccessFault := ⟨rfl, rfl⟩

/-! ## Host programs, 30_encoding.md R97 -/

/-- R97: SETDST.I420 of P1. -/
theorem test_set_dst : writeTransactions (setDstI420 0x2000 2 2) =
    [(0x2C, 0x2000), (0x30, 0x2004), (0x34, 0x2005), (0x38, 0x2), (0x3C, 0x1)] := by decide

/-! ## Witnesses: encoding and fetching -/

theorem witness_exactly_four : ([0x4, 0xF, 0x10, 0x80000001, 0xFFFFFFFF] : List Word).all (fun w => decide
    (w ≠ 0x0 ∧ w ≠ 0x1 ∧ w ≠ 0x2 ∧ w ≠ 0x3 ∧ cmdWriteNext w [] (given (cmdInput w) idle2) ∧
      (given (cmdInput w) idle2).phase = .idle)) = true := by decide +kernel
theorem witness_reserved_opcodes : 4 ≤ (0x4 : Nibble).toNat ∧ 4 ≤ (0xF : Nibble).toNat := by decide
theorem witness_bytes_decode : decode 0x3 = .ok .repack ∧ decode 0x4 = .error .reservedOpcode := by decide
theorem witness_step_decoded : ∀ i ∈ [Instr.nop, .cscFwd, .cscInv, .repack],
    cmdWriteNext (encode i) [] (given (cmdInput (encode i)) idle2) ∧
      (given (cmdInput (encode i)) idle2).phase = .idle ∧ decode (encode i) = .ok i := by decide
theorem witness_step_latched : ∀ i ∈ [Instr.cscFwd, .cscInv, .repack],
    (running i idle2).phase = .busy ∧ commandOf (running i idle2).latch.op = some i ∧
      engineNext (running i idle2) ∧ engineNext (given .engine (running i idle2)) := by decide

/-! ## Witnesses: acceptance -/

/-- The premise on footprints, for a command that passes its check, one that fails it, and an illegal word. -/
theorem witness_acceptance : ([0x0, 0x1, 0x2, 0x3, 0x4, 0x10] : List Word).all (fun w => decide
    (cmdWriteNext w [] (given (cmdInput w) idle2) ∧ (given (cmdInput w) idle2).phase = .idle ∧
      ∀ i ∈ [Instr.nop, .cscFwd, .cscInv, .repack], decode w = .ok i → check w (latchOperands w idle2.regs) = .none →
        footprintRefusal idle2.platform (footprints i (latchOperands w idle2.regs)) = none)) = true := by
  decide +kernel
theorem witness_acceptance_passes : ([0x0, 0x1, 0x2, 0x3] : List Word).all (fun w => decide
    (check w (latchOperands w idle2.regs) = .none)) = true := by decide +kernel

/-- A latched command with the planes of `planes0` but `dim`. -/
def latched (dim : Word) (p : Planes) : Latched := latchOperands 0 { dim := dim, planes := p }

/-- BAD_CMD at both ends of its two ranges; NOP of a zero size. -/
theorem witness_check_bad_cmd :
    ((0x10 : Word).extractLsb' 4 28 ≠ 0 ∧ check 0x10 (latched 0 Planes.reset) = .badCmd) ∧
    (4 ≤ ((0x4 : Word).extractLsb' 0 4).toNat ∧ check 0x4 (latched 0 Planes.reset) = .badCmd) ∧
    (¬4 ≤ ((0x3 : Word).extractLsb' 0 4).toNat) ∧ check 0x0 (latched 0 Planes.reset) = .none := by decide +kernel
/-- BAD_DIM at zero width and at zero height, whatever the strides. -/
theorem witness_check_bad_dim : ([0x1, 0x2, 0x3] : List Word).all (fun w => decide
    (check w (latched 0x00020000 Planes.reset) = .badDim ∧ check w (latched 0x00000002 planes0) = .badDim)) = true := by
  decide +kernel
/-- BAD_STRIDE one below each minimum of the 2 × 2 picture. -/
theorem witness_check_bad_stride :
    check 0x1 (latched 0x00020002 { planes0 with rgbaStride := 7 }) = .badStride ∧
    check 0x1 (latched 0x00020002 { planes0 with dstYStride := 1 }) = .badStride ∧
    check 0x1 (latched 0x00020002 { planes0 with dstUVStride := 0 }) = .badStride ∧
    check 0x2 (latched 0x00020002 { planes0 with srcYStride := 1 }) = .badStride ∧
    check 0x2 (latched 0x00020002 { planes0 with srcUVStride := 0 }) = .badStride ∧
    check 0x3 (latched 0x00020002 { planes0 with dstUVStride := 0 }) = .badStride := by decide +kernel
/-- RANGE one above the largest base, and the largest base. -/
theorem witness_check_range :
    check 0x1 (latched 0x00020002 { planes0 with rgbaBase := 0xFFFFFFF1 }) = .range ∧
    check 0x1 (latched 0x00020002 { planes0 with rgbaBase := 0xFFFFFFF0 }) = .none ∧
    check 0x2 (latched 0x00020002 { planes0 with srcYBase := 0xFFFFFFFD }) = .range ∧
    check 0x2 (latched 0x00020002 { planes0 with srcYBase := 0xFFFFFFFC }) = .none ∧
    check 0x3 (latched 0x00020002 { planes0 with dstVBase := 0xFFFFFFFF }) = .none := by decide +kernel

theorem witness_rejection : cmdWriteNext 0x1 [] (given (cmdInput 0x1) idle0) ∧
    (given (cmdInput 0x1) idle0).phase = .idle ∧ check 0x1 (latchOperands 0x1 idle0.regs) = .badDim := by decide
theorem witness_start : ∀ i ∈ [Instr.cscFwd, .cscInv, .repack], i ≠ .nop ∧ idle2.phase = .idle ∧
    checkCommand i (latchOperands (encode i) idle2.regs) = .none ∧
      footprintRefusal idle2.platform (footprints i (latchOperands (encode i) idle2.regs)) = none := by
  decide +kernel

/-- The register window over the RGBA plane. -/
def windowed : State := { idle2 with platform := { quiet with regBase := some 0x1000 } }
/-- A device in the RGBA plane. -/
def deviced : State := { idle2 with platform := { quiet with devices := [{ first := 0x1004, last := 0x1007 }] } }

theorem witness_refused_command : windowed.phase = .idle ∧
    checkCommand .cscFwd (latchOperands (encode .cscFwd) windowed.regs) = .none ∧
    0x1000 ∈ footprintAddresses (footprints .cscFwd (latchOperands (encode .cscFwd) windowed.regs)) ∧
    onRegisterWindow windowed.platform 0x1000 = true ∧
    0x1007 ∈ footprintAddresses (footprints .cscFwd (latchOperands (encode .cscFwd) deviced.regs)) ∧
    isDevice deviced.platform 0x1007 = true ∧
    after (exec .cscFwd windowed) (fun _ => true) = false ∧
    after (exec .cscFwd deviced) (fun _ => true) = false := by decide +kernel
/-- The window's first and last bytes and the bytes beside it. -/
theorem witness_refused_access : onRegisterWindow windowed.platform 0x1000 = true ∧
    onRegisterWindow windowed.platform 0x10FF = true ∧ onRegisterWindow windowed.platform 0x1100 = false ∧
    onRegisterWindow windowed.platform 0xFFF = false ∧ onRegisterWindow deviced.platform 0x1004 = false ∧
    isDevice deviced.platform 0x1004 = true ∧ isDevice deviced.platform 0x1008 = false ∧
    (given (.memRead 0x1000 true) windowed).inputs = [.memRead 0x1000 true] ∧
    (given (.memWrite 0x1004 7 true) deviced).inputs = [.memWrite 0x1004 7 true] := by decide

theorem witness_dropped : cmdWriteNext 0x3 [] (given (cmdInput 0x3) (running .cscInv idle2)) ∧
    (given (cmdInput 0x3) (running .cscInv idle2)).phase = .busy := by decide
theorem witness_nop : idle0.phase = .idle ∧ opField 0x10 = 0 ∧ (0x10 : Word) ≠ 0x0 ∧
    cmdWriteNext 0x0 [] (given (cmdInput 0x0) (running .cscInv idle2)) := by decide

/-! ## Witnesses: completion -/

/-- Each command runs cleanly on an even and on an odd picture. -/
theorem witness_clean_even : ∀ i ∈ [Instr.cscFwd, .cscInv, .repack], runsCleanly i (running i idle2) := by
  decide +kernel
theorem witness_clean_odd : ∀ i ∈ [Instr.cscFwd, .cscInv, .repack], runsCleanly i (running i idle3) := by
  decide +kernel

theorem witness_completion_frame : ∀ i ∈ [Instr.nop, .cscFwd, .cscInv, .repack],
    (running i idle2).phase = .busy ∧ after (exec i (running i idle2)) (fun _ => true) = true := by decide +kernel
theorem witness_acceptance_frame : ∀ i ∈ [Instr.nop, .cscFwd, .cscInv, .repack],
    idle2.phase = .idle ∧ after (exec i idle2) (fun _ => true) = true := by decide +kernel

/-- The memory of `mem0` with another A byte, and with another byte outside every plane. -/
def otherAlpha : Memory := Memory.write mem0 0x1003 0x99
def otherPadding : Memory := Memory.write mem0 0x0FFF 0x99

theorem witness_only_source : (running .cscFwd idle2).phase = .busy ∧
    (∀ a ∈ footprintAddresses (readFootprints .cscFwd (running .cscFwd idle2).latch),
      otherPadding.read a = (running .cscFwd idle2).mem.read a) ∧
    after (exec .cscFwd (running .cscFwd idle2)) (fun _ => true) = true ∧
    after (exec .cscFwd { running .cscFwd idle2 with mem := otherPadding }) (fun _ => true) = true ∧
    0x2000 ∈ footprintAddresses (writeFootprints .cscFwd (running .cscFwd idle2).latch) ∧
    busOK (running .cscFwd idle2).platform 0x2000 .write = true := by decide +kernel
theorem witness_alpha : (running .cscFwd idle2).phase = .busy ∧
    (∀ row < (running .cscFwd idle2).latch.H, ∀ col < (running .cscFwd idle2).latch.W, ∀ ch < 3,
      otherAlpha.read ((running .cscFwd idle2).latch.rgbaAt row col + ch) =
        (running .cscFwd idle2).mem.read ((running .cscFwd idle2).latch.rgbaAt row col + ch)) ∧
    otherAlpha.read 0x1003 ≠ mem0.read 0x1003 ∧
    after (exec .cscFwd { running .cscFwd idle2 with mem := otherAlpha }) (fun _ => true) = true := by
  decide +kernel
theorem witness_alpha_bus : runningAs .cscFwd (running .cscFwd { idle2 with platform := failsRead 0x100F }) ∧
    busOK (failsRead 0x100F) ((running .cscFwd idle2).latch.rgbaAt 1 1 + 3) .read = false := by decide +kernel

theorem witness_bus_read : runningAs .repack (running .repack { idle2 with platform := failsRead 0x3005 }) ∧
    0x3005 ∈ footprintAddresses (readFootprints .repack (running .repack idle2).latch) ∧
    busOK (failsRead 0x3005) 0x3005 .read = false := by decide +kernel
theorem witness_bus_write : runningAs .cscInv (running .cscInv { idle2 with platform := failsWrite 0x100F }) ∧
    0x100F ∈ footprintAddresses (writeFootprints .cscInv (running .cscInv idle2).latch) ∧
    busOK (failsWrite 0x100F) 0x100F .write = false := by decide +kernel

/-- Overlap of a source, overlap of two destination planes, and an in-place REPACK. -/
theorem witness_overlap : overlaps .cscFwd (latched 0x00020002 { planes0 with dstYBase := 0x100F }) = true ∧
    overlaps .cscFwd (latched 0x00020002 { planes0 with dstVBase := 0x2004 }) = true ∧
    overlaps .cscFwd (latched 0x00020002 planes0) = false ∧
    overlaps .repack (latched 0x00020002 inPlace.regs.planes) = true := by decide +kernel
theorem witness_in_place : (latched 0x00020002 inPlace.regs.planes).width ≠ 0 ∧
    (latched 0x00020002 inPlace.regs.planes).height ≠ 0 ∧
    inPlace.regs.planes.srcYBase = inPlace.regs.planes.dstYBase ∧
    inPlace.regs.planes.srcUBase = inPlace.regs.planes.dstUBase ∧
    inPlace.regs.planes.srcVBase = inPlace.regs.planes.dstVBase ∧
    inPlace.regs.planes.srcYStride = inPlace.regs.planes.dstYStride ∧
    inPlace.regs.planes.srcUVStride = inPlace.regs.planes.dstUVStride := by decide
theorem witness_overlap_runs : runningAs .repack (running .repack inPlace) ∧
    busAnswersOK .repack (running .repack inPlace) ∧ overlaps .repack (running .repack inPlace).latch = true := by
  decide +kernel
theorem witness_taint_runs : runningAs .cscFwd { running .cscFwd idle2 with taint := true } ∧
    busAnswersOK .cscFwd { running .cscFwd idle2 with taint := true } := by decide +kernel

/-- The writes of a clean REPACK in reverse order. -/
theorem witness_write_order : runsCleanly .repack (running .repack idle2) ∧
    (performCells .repack (running .repack idle2).latch (running .repack idle2).mem.read).reverse.isPerm
      (performCells .repack (running .repack idle2).latch (running .repack idle2).mem.read) = true := by
  decide +kernel

/-- Both phases, for a flag that differs and for the end of a command. -/
theorem witness_flags : after (exec .cscFwd idle2) (fun t => t.phase == .busy) = true ∧
    after (exec .cscFwd (running .cscFwd idle2)) (fun t => t.phase == .idle) = true ∧
    after (exec .nop idle2) (fun t => t.status.done) = true := by decide +kernel

/-- The host's place at the end of its program, before a label, and before its only transaction. -/
def hostAt (pc : Nat) : HostCtl := { pc := pc, names := [] }
/-- A program of one transaction and a label. -/
def nopProgram : List HostOp := startOp .nop ++ [.label "end"]
theorem witness_transactions_done : transactionsDone nopProgram (hostAt 1) ∧ transactionsDone nopProgram (hostAt 2) ∧
    atTransaction nopProgram (hostAt 0) = true := by
  refine ⟨fun n => ?_, fun n => by cases n <;> rfl, by decide⟩
  rcases n with - | - | n <;> rfl
/-- A run ended in Idle, a run past its last transaction in Busy, and one before its first. -/
theorem witness_run_ended : programRunEnded nopProgram { host := hostAt 1, machine := idle2 } ∧
    transactionsDone nopProgram (hostAt 2) ∧ runningAs .cscFwd (running .cscFwd idle2) ∧
    ¬programRunEnded nopProgram { host := hostAt 0, machine := idle2 } :=
  ⟨⟨witness_transactions_done.1, rfl⟩, witness_transactions_done.2.1, by decide +kernel,
    fun h => absurd (h.1 0) (by decide)⟩
/-- Input lists without and with a transaction left. -/
theorem witness_inputs_ended : runEnded idle2 ∧ runEnded (given .engine idle2) ∧ runEnded (given .rstAssert idle2) ∧
    ¬runEnded (given (cmdInput 0x1) idle2) ∧ ¬runEnded (running .cscFwd idle2) := by decide

/-! ## Witnesses: registers and flags -/

theorem witness_status_write : (given (.regWrite 0x04 4 0xE) idle2).rst = false ∧
    (given (.regWrite 0x04 4 0xE) idle2).inputs = [.regWrite 0x04 4 0xE] := by decide
theorem witness_ctrl_write : (given (.regWrite 0x00 4 1) idle2).rst = false ∧
    (given (.regWrite 0x00 4 1) idle2).inputs = [.regWrite 0x00 4 1] := by decide
theorem witness_config_write : Reg.srcUBase ≠ .ctrl ∧ Reg.srcUBase ≠ .status ∧ Reg.srcUBase ≠ .cmd ∧
    (given (.regWrite (regOffset .srcUBase) 4 7) (running .repack idle2)).rst = false ∧
    (given (.regWrite (regOffset .srcUBase) 4 7) (running .repack idle2)).inputs =
      [.regWrite (regOffset .srcUBase) 4 7] ∧
    (given (.regWrite (regOffset .srcUBase) 4 7) (running .repack idle2)).phase = .busy ∧
    after (exec .repack (running .repack idle2)) (fun _ => true) = true := by decide +kernel
/-- The first and last reserved offsets; words that differ only in ignored bits. -/
theorem witness_reserved : 0x40 ≤ (0x40 : Byte).toNat ∧ (0x40 : Byte).toNat % 4 = 0 ∧
    0x40 ≤ (0xFC : Byte).toNat ∧ (0xFC : Byte).toNat % 4 = 0 ∧
    (given (.regRead 0xFC 4) idle0).inputs = [.regRead 0xFC 4] ∧
    (given (.regWrite 0x40 4 7) idle0).inputs = [.regWrite 0x40 4 7] ∧
    (0x1 : Word).getLsbD 0 = (0xFFFFFFFF : Word).getLsbD 0 ∧
    (0xE : Word).extractLsb' 1 3 = (0xFFFFFFFF : Word).extractLsb' 1 3 := by decide
theorem witness_access_rules : (2 ≠ 4) ∧ (0x02 : Byte).toNat % 4 ≠ 0 ∧ (0x04 : Byte).toNat % 4 = 0 ∧
    (given (.regRead 0x04 2) idle0).inputs = [.regRead 0x04 2] ∧
    (given (.regRead 0x04 4) idle0).inputs = [.regRead 0x04 4] := by decide

/-- A state with an outcome pending. -/
def doneState : State := { idle2 with status := { Status.reset with done := true } }
def failedState : State := { idle2 with status := { Status.reset with err := true, errCode := .range } }

theorem witness_irq : (doneState.status.done = true ∨ doneState.status.err = true) ∧
    after (exec .cscFwd doneState) (fun t => t.phase == .busy) = true ∧ doneState.phase = .idle ∧
    after (assertReset doneState) (fun _ => true) = true := by decide +kernel
/-- BUSY set by an acceptance, cleared by a completion and by reset. -/
theorem witness_busy_changes : after (step (given (cmdInput 0x1) idle2)) (fun t => t.phase == .busy) = true ∧
    after (step (running .cscFwd idle2)) (fun t => t.phase == .idle) = true ∧
    after (step (given .rstAssert (running .cscFwd idle2))) (fun t => t.phase == .idle) = true := by
  decide +kernel
/-- DONE set by a completion and by a NOP, cleared by W1C, an acceptance and reset. -/
theorem witness_done_changes : after (step (running .cscFwd idle2)) (fun t => t.status.done) = true ∧
    after (step (given (cmdInput 0x0) idle2)) (fun t => t.status.done) = true ∧
    after (step (given (.regWrite 0x04 4 2) doneState)) (fun t => !t.status.done) = true ∧
    after (step (given (cmdInput 0x1) doneState)) (fun t => !t.status.done) = true ∧
    after (step (given .rstAssert doneState)) (fun t => !t.status.done) = true := by decide +kernel
/-- ERR set by a rejection and by a bus error, cleared by W1C, an acceptance and reset. -/
theorem witness_err_changes : after (step (given (cmdInput 0x1) idle0)) (fun t => t.status.err) = true ∧
    after (step (running .cscFwd { idle2 with platform := failsRead 0x1000 })) (fun t => t.status.err) = true ∧
    after (step (given (.regWrite 0x04 4 4) failedState)) (fun t => !t.status.err) = true ∧
    after (step (given (cmdInput 0x1) failedState)) (fun t => !t.status.err) = true ∧
    after (step (given .rstAssert failedState)) (fun t => !t.status.err) = true := by decide +kernel
/-- CMD_LOST set by a CMD write in Busy, cleared by W1C and reset. -/
theorem witness_cmd_lost_changes :
    after (step (given (cmdInput 0x3) (running .cscInv idle2))) (fun t => t.status.cmdLost) = true ∧
    after (step (given (.regWrite 0x04 4 8) (setCmdLost idle2))) (fun t => !t.status.cmdLost) = true ∧
    after (step (given .rstAssert (setCmdLost idle2))) (fun t => !t.status.cmdLost) = true := by decide +kernel
/-- LAST_OP changed by a rejected word and by reset. -/
theorem witness_last_op_changes :
    after (step (given (cmdInput 0x7) idle2)) (fun t => t.status.lastOp != idle2.status.lastOp) = true ∧
    after (step (given .rstAssert { idle2 with status := { Status.reset with lastOp := 3 } }))
      (fun t => t.status.lastOp != 3) = true := by decide +kernel
/-- A register changed by a host write and by reset. -/
theorem witness_register_changes :
    after (step (given (.regWrite 0x0C 4 7) idle2)) (fun t => t.regs != idle2.regs) = true ∧
    after (step (given .rstAssert idle2)) (fun t => t.regs != idle2.regs) = true := by decide +kernel

/-- Memory changed by a completion, a host write, and reset in Busy. -/
theorem witness_memory_changes : after (step (running .cscFwd idle3)) (fun t => t.mem != []) = true ∧
    after (step (given (.memWrite 0x7000 7 true) idle3)) (fun t => t.mem != []) = true ∧
    after (step (given .rstAssert (running .cscFwd idle3))) (fun t => t.mem != []) = true ∧ idle3.mem = [] := by
  decide +kernel
/-- `L` changed by an acceptance, of a rejected word too, and by reset. -/
theorem witness_latch_changes : after (step (given (cmdInput 0x1) idle2)) (fun t => t.latch != idle2.latch) = true ∧
    after (step (given (cmdInput 0x7) idle2)) (fun t => t.latch != idle2.latch) = true ∧
    after (step (given .rstAssert (running .repack idle2)))
      (fun t => t.latch != (running .repack idle2).latch) = true := by decide +kernel
/-- Taint set by a host write to a source and to a destination byte, on a path that is not coherent too, and cleared
by an acceptance and by reset. -/
theorem witness_taint_changes :
    after (step (given (.memWrite 0x1000 7 true) (running .cscFwd idle2))) (fun t => t.taint) = true ∧
    after (step (given (.memWrite 0x2005 7 true) (running .cscFwd idle2))) (fun t => t.taint) = true ∧
    after (step (given (.memWrite 0x1000 7 false)
      { running .cscFwd idle2 with platform := { quiet with hostCoherent := false } })) (fun t => t.taint) = true ∧
    after (step (given (cmdInput 0x1) { idle2 with taint := true })) (fun t => !t.taint) = true ∧
    after (step (given .rstAssert { running .cscFwd idle2 with taint := true })) (fun t => !t.taint) = true := by
  decide +kernel
theorem witness_engine_idle : idle2.phase = .idle ∧ engineNext idle2 ∧ engineNext (given .engine idle2) := by decide

/-! ## Witnesses: host and memory -/

/-- A host write in Idle, and one in Busy beside the footprints: it lands and does not taint. -/
theorem witness_host_write :
    (given (.memWrite 0x1000 7 true) idle2).inputs = [.memWrite 0x1000 7 true] ∧
    hostMemoryRefusal idle2.platform 0x1000 = none ∧ pathCoherent idle2.platform true = true ∧
    after (step (given (.memWrite 0x1000 7 true) idle2)) (fun t => t.mem.read 0x1000 == 7 && !t.taint) = true ∧
    0x2006 ∉ footprintAddresses (footprints .cscFwd (running .cscFwd idle2).latch) ∧
    after (step (given (.memWrite 0x2006 7 true) (running .cscFwd idle2)))
      (fun t => t.mem.read 0x2006 == 7 && !t.taint) = true := by decide +kernel

/-- A host write to a source byte, and one to a destination byte. -/
theorem witness_taint_write : runningAs .cscFwd (given (.memWrite 0x1000 7 true) (running .cscFwd idle2)) ∧
    hostMemoryRefusal quiet 0x1000 = none ∧
    0x1000 ∈ footprintAddresses (footprints .cscFwd (running .cscFwd idle2).latch) ∧
    0x1000 ∉ footprintAddresses (writeFootprints .cscFwd (running .cscFwd idle2).latch) ∧
    0x2005 ∈ footprintAddresses (footprints .cscFwd (running .cscFwd idle2).latch) ∧
    busAnswersOK .cscFwd (running .cscFwd idle2) := by decide +kernel
theorem witness_read_in_busy : runningAs .cscFwd (given (.memRead 0x2005 true) (running .cscFwd idle2)) ∧
    hostMemoryRefusal quiet 0x2005 = none ∧
    0x2005 ∈ footprintAddresses (writeFootprints .cscFwd (running .cscFwd idle2).latch) ∧
    0x2006 ∉ footprintAddresses (writeFootprints .cscFwd (running .cscFwd idle2).latch) := by decide +kernel
theorem witness_observation : runningAs .cscFwd (running .cscFwd idle2) ∧
    hostMemoryRefusal (running .cscFwd idle2).platform (0x2000 : Word).toNat = none ∧
    (0x2000 : Word).toNat ∈ footprintAddresses (writeFootprints .cscFwd (running .cscFwd idle2).latch) := by
  decide +kernel
/-- Idle, after a CSC_FWD whose outcome is still to be observed, and after one whose outcome was lost. -/
def awaiting : State := { doneState with awaited := writeFootprints .cscFwd (latchOperands 0x1 idle2.regs) }
def lost : State := loseOutcome awaiting
theorem witness_idle_read : (given (.memRead 0x2000 true) idle2).phase = .idle ∧
    (given (.memRead 0x2000 true) idle2).inputs = [.memRead 0x2000 true] ∧
    hostMemoryRefusal idle2.platform 0x2000 = none ∧ pathCoherent idle2.platform true = true ∧
    0x2000 ∉ footprintAddresses idle2.awaited ∧ 0x2000 ∉ idle2.unobserved ∧
    after (step (given (.memRead 0x2000 true) idle2)) (fun t => t.reply == .byte 0xEE) = true ∧
    0x2005 ∈ footprintAddresses awaiting.awaited ∧ 0x2006 ∉ footprintAddresses awaiting.awaited ∧
    0x2005 ∈ lost.unobserved ∧ 0x2006 ∉ lost.unobserved := by decide +kernel
/-- A later word that is rejected, and reset, with a byte awaited and with one lost. -/
theorem witness_lost_outcome : awaiting.phase = .idle ∧ lost.phase = .idle ∧ awaiting.rst = false ∧
    hostMemoryRefusal awaiting.platform 0x2005 = none ∧ 0x2005 ∈ footprintAddresses awaiting.awaited ∧
    0x2005 ∈ lost.unobserved ∧ check 0x7 (latchOperands 0x7 awaiting.regs) ≠ .none := by decide +kernel
def incoherent : State := { idle2 with platform := { quiet with hostCoherent := false } }
theorem witness_incoherent : (given (.memRead 0x2000 false) incoherent).platform.hostCoherent = false ∧
    hostMemoryRefusal incoherent.platform 0x2000 = none ∧
    (given (.memRead 0x2000 false) incoherent).inputs = [.memRead 0x2000 false] ∧
    (given (.memWrite 0x2000 7 false) incoherent).inputs = [.memWrite 0x2000 7 false] ∧
    runningCommand (running .cscFwd incoherent) = some .cscFwd ∧
    0x2000 ∈ footprintAddresses (footprints .cscFwd (running .cscFwd incoherent).latch) ∧
    0x2006 ∉ footprintAddresses (footprints .cscFwd (running .cscFwd incoherent).latch) := by decide +kernel
theorem witness_memory_canonical : idle2.mem.wf ∧
    after (step (given (.memWrite 0x1800 7 true) idle2)) (fun t => decide (t.mem.wf)) = true := by decide +kernel

/-! ## Witnesses: reset and invariants -/

theorem witness_abandoned : acceptedAs .repack (given .rstAssert (running .repack idle2)) ∧
    runningCommand (given .rstAssert (running .repack idle2)) = some .repack ∧
    (given .rstAssert idle2).phase = .idle := by decide +kernel
/-- A legal running command of each kind, and Idle. -/
theorem witness_legal : runningLegal (running .cscFwd idle2) ∧ runningLegal (running .cscInv idle2) ∧
    runningLegal (given .rstAssert (running .repack idle2)) ∧ runningLegal (given .rstAssert idle2) := by
  refine ⟨fun _ => .inl ?_, fun _ => .inr (.inl ?_), fun _ => .inr (.inr ?_), fun h => absurd h ?_⟩ <;>
    decide +kernel
theorem witness_after_reset : Instr.cscFwd ≠ .nop ∧ Instr.cscInv ≠ .nop ∧ Instr.repack ≠ .nop := by decide
/-- Every invariant at once, Idle and Busy. -/
theorem witness_invariants : Machine.Inv doneState ∧ Machine.Inv (running .cscFwd idle2) := by
  refine ⟨⟨?_, fun h => absurd h ?_, ?_, ?_⟩, ⟨?_, fun _ => .inl ?_, ?_, ?_⟩⟩ <;> decide +kernel
theorem witness_consistent_step : statusConsistent (running .cscFwd idle2) ∧
    after (step (running .cscFwd idle2)) (fun _ => true) = true := by decide +kernel
/-- Reset held, with `rst` asserted, through a CMD write. -/
theorem witness_reset_held : resetHeld (given (cmdInput 0x0) { idle0 with rst := true }) ∧
    after (step (given (cmdInput 0x0) { idle0 with rst := true })) (fun t => t.rst && !t.status.done) = true := by
  decide +kernel
/-- A running command with inputs before the engine's turn. -/
theorem witness_progress : acceptedAs .repack (given (.regRead 0x04 4) (running .repack idle2)) ∧
    (given (.regRead 0x04 4) (running .repack idle2)).phase = .busy := by decide +kernel
theorem witness_tight : 0 < 3 ∧ 0 < 2 := by decide

end Sys2Proof.Tests
end

/-! # The block's state over a step

Which of the machine's fields a step can change, and by what cause (10_state.md R21 to R46). The laws come first:
completion, the check, `StatusChange` for the flags and the phase, and one inversion each for memory, for the
latched command with taint, and for the configuration registers. The obligations follow, each a case analysis on its law. -/

namespace Sys2Proof.Machine

/-! ## What a completion changes -/

section Completion
variable (i : Instr) (e : Latched → (Nat → Byte) → List Host.Cell) (s : State)

@[simp] theorem completion_phase : (completion i e s).phase = .idle := by rw [completion_frame]
@[simp] theorem completion_irqEn : (completion i e s).irqEn = s.irqEn := by rw [completion_frame]
@[simp] theorem completion_regs : (completion i e s).regs = s.regs := by rw [completion_frame]
@[simp] theorem completion_latch : (completion i e s).latch = s.latch := by rw [completion_frame]
@[simp] theorem completion_taint : (completion i e s).taint = s.taint := by rw [completion_frame]
@[simp] theorem completion_rst : (completion i e s).rst = s.rst := by rw [completion_frame]
@[simp] theorem completion_platform : (completion i e s).platform = s.platform := by rw [completion_frame]
@[simp] theorem completion_inputs_kept : (completion i e s).inputs = s.inputs := by rw [completion_frame]
@[simp] theorem completion_reply : (completion i e s).reply = s.reply := by rw [completion_frame]
@[simp] theorem completion_awaited : (completion i e s).awaited = s.awaited := by rw [completion_frame]
@[simp] theorem completion_unobserved : (completion i e s).unobserved = s.unobserved := by rw [completion_frame]

/-- A completion sets DONE, or raises a bus error, and leaves the rest of STATUS (43_control.md R172). -/
theorem completion_status :
    (completion i e s).status = { s.status with done := true } ∨
      (completion i e s).status = { s.status with err := true, errCode := .bus } := by
  rcases completion_cases i e s with ⟨_, h⟩ | ⟨_, _, h⟩ | ⟨_, _, _, h⟩
  · exact .inr (by rw [h]; rfl)
  · exact .inl (by rw [h]; rfl)
  · exact .inl (by rw [h]; rfl)

end Completion

/-- The memory after a completion is a list of byte writes, each at an address of `WFP` (20_memory.md R63). -/
theorem completion_mem (i : Instr) (s : State) :
    ∃ cells : List Host.Cell, (completion i (performCells i) s).mem = s.mem.writeAll cells ∧
      ∀ c ∈ cells, c.1 ∈ footprintAddresses (writeFootprints i s.latch) := by
  rcases completion_cases i (performCells i) s with ⟨_, h⟩ | ⟨_, _, h⟩ | ⟨_, _, _, h⟩
  · refine ⟨_, by rw [h]; rfl, fun c hc => ?_⟩
    obtain ⟨a, ha, rfl⟩ := List.mem_map.1 hc
    exact (List.mem_filter.1 ha).1
  · refine ⟨_, by rw [h]; rfl, fun c hc => ?_⟩
    obtain ⟨a, ha, rfl⟩ := List.mem_map.1 hc
    exact ha
  · exact ⟨_, by rw [h]; rfl, performCells_in_destination i s.latch s.mem.read⟩

/-! ## The check of a word -/

theorem check_of_illegal {w : Word} {e : DecodeError} (h : decode w = .error e) (l : Latched) :
    check w l = .badCmd := by
  simp [check, h]

theorem check_of_decode {w : Word} {i : Instr} (h : decode w = .ok i) (l : Latched) :
    check w l = checkCommand i l := by
  simp [check, h]

/-- Only NOP has the opcode 0 (30_encoding.md R91). -/
theorem opField_ne_zero {w : Word} {i : Instr} (hn : i ≠ .nop) (h : decode w = .ok i) : opField w ≠ 0 := by
  intro h0
  have hc := commandOf_decode h
  rw [h0] at hc
  exact hn (by simpa [commandOf] using hc.symm)

/-! ## STATUS and the phase over a step -/

/-- What a step can do to STATUS and the phase, one constructor for each cause (10_state.md R28 to R33). -/
inductive StatusChange (s t : State) : Prop where
  | kept (hs : t.status = s.status) (hp : t.phase = s.phase)
  | completed (hb : s.phase = .busy) (hn : engineNext s) (hs : t.status = { s.status with done := true })
      (hp : t.phase = .idle)
  | busError (hb : s.phase = .busy) (hn : engineNext s)
      (hs : t.status = { s.status with err := true, errCode := .bus }) (hp : t.phase = .idle)
  | acknowledged (v : Word) (rest : List Input) (hi : s.inputs = .regWrite 0x04 4 v :: rest)
      (hs : t.status = (writeStatus v s).status) (hp : t.phase = s.phase)
  | dropped (hb : s.phase = .busy) (w : Word) (rest : List Input) (hc : cmdWriteNext w rest s)
      (hs : t.status = { s.status with cmdLost := true }) (hp : t.phase = .busy)
  | rejected (hd : s.phase = .idle) (w : Word) (rest : List Input) (hc : cmdWriteNext w rest s)
      (hk : check w (latchOperands w s.regs) ≠ .none)
      (hs : t.status = { done := false, err := true, cmdLost := s.status.cmdLost,
                         errCode := check w (latchOperands w s.regs), lastOp := opField w })
      (hp : t.phase = .idle)
  | nop (hd : s.phase = .idle) (rest : List Input) (hc : cmdWriteNext 0x0 rest s)
      (hs : t.status = { done := true, err := false, cmdLost := s.status.cmdLost, errCode := .none, lastOp := 0 })
      (hp : t.phase = .idle)
  | started (hd : s.phase = .idle) (w : Word) (rest : List Input) (hc : cmdWriteNext w rest s)
      (hk : check w (latchOperands w s.regs) = .none) (ho : opField w ≠ 0)
      (hs : t.status = { done := false, err := false, cmdLost := s.status.cmdLost, errCode := .none,
                         lastOp := opField w })
      (hp : t.phase = .busy)
  | reset (hi : s.inputs.head? = some .rstAssert) (hs : t.status = Status.reset) (hp : t.phase = .idle)

/-- Every step changes STATUS and the phase in one of these ways. -/
theorem step_statusChange {s t : State} (h : step s = .next t) : StatusChange s t := by
  cases step_next h with
  | engineBusy i hn hb =>
    rcases completion_status i (performCells i) { s with inputs := s.inputs.tail } with hs | hs
    · exact .completed hb hn hs (by simp)
    · exact .busError hb hn hs (by simp)
  | statusWrite v rest hi => exact .acknowledged v rest hi rfl rfl
  | configWrite => exact .kept (by simp) (by simp)
  | cmdDropped w rest hc hb => exact .dropped hb w rest hc rfl hb
  | cmdIllegal w rest hc hd e he =>
    have hk := check_of_illegal he (latchOperands w s.regs)
    exact .rejected hd w rest hc (by simp [hk]) (by rw [hk]; rfl) hd
  | cmdRejected w rest hc hd i hi hk =>
    rw [← check_of_decode hi] at hk ⊢
    exact .rejected hd w rest hc hk rfl hd
  | cmdNop w rest hc hd hi =>
    obtain rfl := eq_encode_of_decode hi
    exact .nop hd rest hc rfl hd
  | cmdStarted w rest hc hd i hn hi hk =>
    exact .started hd w rest hc (by rw [check_of_decode hi, hk]) (opField_ne_zero hn hi) rfl rfl
  | resetIdle rest hi => exact .reset (by simp [hi]) rfl rfl
  | resetBusy rest hi => exact .reset (by simp [hi]) rfl rfl
  | _ => exact .kept rfl rfl

/-! ## Memory, the latched command, taint and the configuration registers over a step -/

/-- What may write memory: the engine, the host, and a reset in Busy (20_memory.md R63; 70_reset_and_hazards.md
R212). -/
def memoryWriter (s : State) : Prop :=
  (s.phase = .busy ∧ engineNext s) ∨ (∃ a v c rest, s.inputs = .memWrite a v c :: rest) ∨
    (s.phase = .busy ∧ s.inputs.head? = some .rstAssert)

/-- A command runs only in Busy. -/
theorem busy_of_runningCommand {s : State} {i : Instr} (h : runningCommand s = some i) : s.phase = .busy := by
  cases hp : s.phase with
  | idle => simp [runningCommand_idle hp] at h
  | busy => rfl

/-- A step leaves memory as it is, or writes bytes that system memory has, for one of the three writers. -/
theorem step_mem {s t : State} (h : step s = .next t) :
    t.mem = s.mem ∨ memoryWriter s ∧ ∃ cells : List Host.Cell, t.mem = s.mem.writeAll cells ∧
      ∀ c ∈ cells, c.1 < Config.addrLimit := by
  cases step_next h with
  | engineBusy i hn hb hc hr =>
    obtain ⟨cells, hm, hin⟩ := completion_mem i { s with inputs := s.inputs.tail }
    exact .inr ⟨.inl ⟨hb, hn⟩, cells, hm, fun c hc => footprints_bound _ (write_inRange hr) _ (hin c hc)⟩
  | memWriteValue a v c rest hi =>
    exact .inr ⟨.inr (.inl ⟨a, v, c, rest, hi⟩), [(a.toNat, v)], rfl, by simpa using a.isLt⟩
  | memWriteAny a v c rest hi =>
    exact .inr ⟨.inr (.inl ⟨a, v, c, rest, hi⟩), _, rfl, by simpa [anyCells] using a.isLt⟩
  | resetBusy rest hi i hc hr =>
    refine .inr ⟨.inr (.inr ⟨busy_of_runningCommand hc, by simp [hi]⟩), _, rfl, fun c hc => ?_⟩
    obtain ⟨a, ha, rfl⟩ := List.mem_map.1 hc
    exact footprints_bound _ hr a ha
  | configWrite => exact .inl (by simp)
  | _ => exact .inl rfl

/-- A CMD write that is accepted: the next input, in Idle with `rst` released (43_control.md R170). -/
def acceptNext (s : State) : Prop := s.phase = .idle ∧ ∃ w rest, cmdWriteNext w rest s

/-- A step leaves `L` and taint; or a host memory write taints by its address; or an acceptance or a reset clears
taint, the only two steps that write `L` (10_state.md R40, R41). -/
theorem step_latch_taint {s t : State} (h : step s = .next t) :
    (t.latch = s.latch ∧ t.taint = s.taint) ∨
      (t.latch = s.latch ∧ ∃ a v c rest, s.inputs = .memWrite a v c :: rest ∧ t.taint = taintedBy a.toNat s) ∨
      (t.taint = false ∧ (acceptNext s ∨ s.inputs.head? = some .rstAssert)) := by
  cases step_next h with
  | engineBusy => exact .inl (by simp)
  | configWrite => exact .inl (by simp)
  | memWriteValue a v c rest hi => exact .inr (.inl ⟨rfl, a, v, c, rest, hi, rfl⟩)
  | memWriteAny a v c rest hi => exact .inr (.inl ⟨rfl, a, v, c, rest, hi, rfl⟩)
  | cmdIllegal w rest hc hd => exact .inr (.inr ⟨rfl, .inl ⟨hd, w, rest, hc⟩⟩)
  | cmdRejected w rest hc hd => exact .inr (.inr ⟨rfl, .inl ⟨hd, w, rest, hc⟩⟩)
  | cmdNop w rest hc hd => exact .inr (.inr ⟨rfl, .inl ⟨hd, w, rest, hc⟩⟩)
  | cmdStarted w rest hc hd => exact .inr (.inr ⟨rfl, .inl ⟨hd, w, rest, hc⟩⟩)
  | resetIdle rest hi => exact .inr (.inr ⟨rfl, .inr (by simp [hi])⟩)
  | resetBusy rest hi => exact .inr (.inr ⟨rfl, .inr (by simp [hi])⟩)
  | _ => exact .inl ⟨rfl, rfl⟩

/-- Only a host write of a configuration register, or a reset, changes one (10_state.md R21). -/
theorem step_regs {s t : State} (h : step s = .next t) :
    t.regs = s.regs ∨
      (∃ r v rest, s.inputs = .regWrite (regOffset r) 4 v :: rest ∧ r ≠ .ctrl ∧ r ≠ .status ∧ r ≠ .cmd) ∨
      s.inputs.head? = some .rstAssert := by
  cases step_next h with
  | engineBusy => exact .inl (by simp)
  | configWrite r v rest hi _ h1 h2 h3 => exact .inr (.inl ⟨r, v, rest, hi, h1, h2, h3⟩)
  | resetIdle rest hi => exact .inr (.inr (by simp [hi]))
  | resetBusy rest hi => exact .inr (.inr (by simp [hi]))
  | _ => exact .inl rfl

/-! ## The obligations about all steps -/

/-- Settles O44: a step leaves memory or writes addresses below 2^32, and a write keeps the list rising. -/
theorem memoryStaysCanonical : Obligations.MemoryStaysCanonical := by
  intro s t hwf h
  rcases step_mem h with hm | ⟨-, cells, hm, hb⟩
  · rwa [hm]
  · rw [hm]; exact writeAll_wf cells s.mem hb hwf

/-- Settles O48, by the causes that change STATUS: in Busy nothing is recorded, so a completion sets one flag. -/
theorem statusStaysConsistent : Obligations.StatusStaysConsistent := by
  refine fun s t ⟨hbusy, hboth, hcode⟩ h => ⟨?_, irq_eq t⟩
  cases step_statusChange h with
  | kept hs hp => rw [statusConsistent, hs, hp]; exact ⟨hbusy, hboth, hcode⟩
  | completed hb _ hs hp =>
    obtain ⟨_, herr, hnone⟩ := hbusy hb
    simp [statusConsistent, hs, hp, herr, hnone]
  | busError hb _ hs hp =>
    obtain ⟨hdone, _, _⟩ := hbusy hb
    simp [statusConsistent, hs, hp, hdone]
  | acknowledged v rest _ hs hp =>
    rw [statusConsistent, hs, hp]
    refine ⟨fun hb => ?_, fun hde => hboth ?_, ?_⟩
    · obtain ⟨hdone, herr, hnone⟩ := hbusy hb
      simp [hdone, herr, hnone]
    · simp at hde; exact ⟨hde.1.1, hde.2.1⟩
    · rw [writeStatus_err, writeStatus_errCode]
      cases v.getLsbD 2 <;> simp [hcode]
  | dropped hb _ _ _ hs hp => rw [statusConsistent, hs]; exact ⟨fun _ => hbusy hb, hboth, hcode⟩
  | rejected _ _ _ _ hk hs hp => simp [statusConsistent, hs, hp, hk]
  | nop _ _ _ hs hp => simp [statusConsistent, hs, hp]
  | started _ _ _ _ _ _ hs hp => simp [statusConsistent, hs]
  | reset _ hs hp => simp [statusConsistent, hs, hp]

/-- Settles O33: BUSY rises only where a command is started, and falls only at a completion or a reset. -/
theorem busyChangesOnlyBy : Obligations.BusyChangesOnlyBy := by
  refine fun s t h => ⟨fun hi hb => ?_, fun hb hi => ?_⟩
  · cases step_statusChange h with
    | kept _ hp => simp [hp, hi] at hb
    | acknowledged _ _ _ _ hp => simp [hp, hi] at hb
    | dropped hs => simp [hs] at hi
    | started _ w rest hc hk ho => exact ⟨w, rest, hc, hk, ho⟩
    | _ => simp_all
  · cases step_statusChange h with
    | kept _ hp => simp [hp, hb] at hi
    | completed _ hn => exact .inl hn
    | busError _ hn => exact .inl hn
    | reset hr => exact .inr hr
    | _ => simp_all

/-- Settles O34, by the causes that change STATUS. -/
theorem doneChangesOnlyBy : Obligations.DoneChangesOnlyBy := by
  refine fun s t h => ⟨fun h0 h1 => ?_, fun h1 h0 => ?_⟩
  · cases step_statusChange h with
    | completed hb hn hs hp => exact .inl ⟨hb, hn, hp, by rw [hs]⟩
    | nop hd rest hc => exact .inr ⟨hd, rest, hc⟩
    | _ => simp_all
  · cases step_statusChange h with
    | acknowledged v rest hi hs => exact .inl ⟨v, rest, hi, by simpa [hs, h1] using h0⟩
    | rejected hd w rest hc => exact .inr (.inl ⟨hd, w, rest, hc⟩)
    | started hd w rest hc => exact .inr (.inl ⟨hd, w, rest, hc⟩)
    | reset hi => exact .inr (.inr hi)
    | _ => simp_all

/-- Settles O35, by the causes that change STATUS. -/
theorem errChangesOnlyBy : Obligations.ErrChangesOnlyBy := by
  refine fun s t h => ⟨fun h0 h1 => ?_, fun h1 h0 => ?_⟩
  · cases step_statusChange h with
    | busError hb hn hs => exact .inl ⟨hb, hn, by rw [hs]⟩
    | rejected hd w rest hc hk hs => exact .inr ⟨hd, w, rest, hc, hk, by rw [hs]⟩
    | _ => simp_all
  · cases step_statusChange h with
    | acknowledged v rest hi hs =>
      have hv : v.getLsbD 2 = true := by simpa [hs, h1] using h0
      exact ⟨by simp [hs, hv], .inl ⟨v, rest, hi, hv⟩⟩
    | nop hd rest hc hs => exact ⟨by rw [hs], .inr (.inl ⟨hd, 0x0, rest, hc⟩)⟩
    | started hd w rest hc _ _ hs => exact ⟨by rw [hs], .inr (.inl ⟨hd, w, rest, hc⟩)⟩
    | reset hi hs => exact ⟨by simp [hs], .inr (.inr hi)⟩
    | _ => simp_all

/-- Settles O36, by the causes that change STATUS; `irq` does not read CMD_LOST. -/
theorem cmdLostIsSticky : Obligations.CmdLostIsSticky := by
  refine ⟨fun s t h => ⟨fun h0 h1 => ?_, fun h1 h0 => ?_⟩, fun s => rfl⟩
  · cases step_statusChange h with
    | dropped hb w rest hc => exact ⟨hb, w, rest, hc⟩
    | _ => simp_all
  · cases step_statusChange h with
    | acknowledged v rest hi hs => exact .inl ⟨v, rest, hi, by simpa [hs, h1] using h0⟩
    | reset hi => exact .inr hi
    | _ => simp_all

/-- Settles O37, by the causes that change STATUS. -/
theorem lastOpChangesOnlyBy : Obligations.LastOpChangesOnlyBy := by
  intro s t h hne
  cases step_statusChange h with
  | rejected hd w rest hc _ hs => exact .inl ⟨hd, w, rest, hc, by rw [hs]⟩
  | nop hd rest hc hs => exact .inl ⟨hd, 0x0, rest, hc, by rw [hs]; rfl⟩
  | started hd w rest hc _ _ hs => exact .inl ⟨hd, w, rest, hc, by rw [hs]⟩
  | reset hi hs => exact .inr ⟨hi, by simp [hs]⟩
  | _ => simp_all

/-- Settles O38, by `step_regs`. -/
theorem registersChangeOnlyByTheHost : Obligations.RegistersChangeOnlyByTheHost :=
  fun _ _ h hne => (step_regs h).resolve_left hne

/-- Settles O39: `step_mem` for memory, `step_latch_taint` for `L` and taint, and the engine's turn in Idle. -/
theorem memoryLatchAndTaintChangeOnlyBy : Obligations.MemoryLatchAndTaintChangeOnlyBy := by
  refine ⟨fun s t h => ⟨fun hne => ((step_mem h).resolve_left hne).1, fun hne => ?_,
    fun h0 h1 => ?_, fun h1 h0 => ?_⟩, fun s hi hn => ?_⟩
  · rcases step_latch_taint h with ⟨hl, -⟩ | ⟨hl, -⟩ | ⟨-, hcause⟩
    · exact absurd hl hne
    · exact absurd hl hne
    · exact hcause
  · rcases step_latch_taint h with ⟨-, ht⟩ | ⟨-, a, v, c, rest, hi, ht⟩ | ⟨ht, -⟩
    · simp [ht, h0] at h1
    · rw [ht, taintedBy_iff, h0] at h1
      obtain ⟨i, hc, ha⟩ := h1.resolve_left (by simp)
      exact ⟨i, a, v, c, rest, hi, hc, ha⟩
    · simp [ht] at h1
  · rcases step_latch_taint h with ⟨-, ht⟩ | ⟨-, a, v, c, rest, -, ht⟩ | ⟨-, hcause⟩
    · simp [ht, h1] at h0
    · simp [ht, taintedBy, h1] at h0
    · exact hcause
  · rw [step_engine hn]; simp [engineTurn, hi]

end Sys2Proof.Machine

/-! # One command, one access

What `exec` of a command reads and leaves alone (10_state.md R21, R39, R44), and what one register or memory access
of the host does (R22 to R34, R215). The laws come first: acceptance and completion case by case, both under other
flags, and the step of each access. The obligations follow. -/

namespace Sys2Proof.Machine

/-! ## Acceptance, case by case -/

/-- A word that is no command raises BAD_CMD (30_encoding.md R92). -/
theorem accept_illegal {w : Word} {e : DecodeError} (h : decode w = .error e) (s : State) :
    accept w s = .next (raiseError .badCmd (beginAccept w s)) := by
  simp [accept, h]

/-- A command that fails its check raises the check's code (60_exceptions.md R182). -/
theorem accept_rejected {w : Word} {i : Instr} {s : State} (h : decode w = .ok i)
    (hk : checkCommand i (latchOperands w s.regs) ≠ .none) :
    accept w s = .next (raiseError (checkCommand i (latchOperands w s.regs)) (beginAccept w s)) := by
  simp only [accept, h, beginAccept_latch]

/-- NOP completes at acceptance (43_control.md R175). -/
theorem accept_nop {w : Word} (h : decode w = .ok .nop) (s : State) :
    accept w s = .next (setDone (beginAccept w s)) := by
  simp [accept, h, checkCommand, startCommand]

/-- Another command that checks out starts the engine (43_control.md R170). -/
theorem accept_started {w : Word} {i : Instr} {s : State} (h : decode w = .ok i) (hn : i ≠ .nop)
    (hk : checkCommand i (latchOperands w s.regs) = .none)
    (hf : footprintRefusal s.platform (footprints i (latchOperands w s.regs)) = none) :
    accept w s = .next (startEngine i (beginAccept w s)) := by
  simp [accept, h, hk, startCommand, hn, hf]

/-- A command that checks out is refused for its footprints (log 8). -/
theorem accept_refused {w : Word} {i : Instr} {s : State} {r : Refusal} (h : decode w = .ok i) (hn : i ≠ .nop)
    (hk : checkCommand i (latchOperands w s.regs) = .none)
    (hf : footprintRefusal s.platform (footprints i (latchOperands w s.regs)) = some r) :
    accept w s = .refused r := by
  simp [accept, h, hk, startCommand, hn, hf]

/-! ## A command under other flags -/

/-- `s` with another STATUS and another IRQ_EN. -/
def withFlags (st : Status) (ie : Bool) (s : State) : State := { s with status := st, irqEn := ie }

/-- Acceptance under other flags accepts and rejects alike, and leaves what differs in the flags alone. -/
theorem accept_withFlags {w : Word} {s t : State} (st : Status) (ie : Bool) (h : accept w s = .next t) :
    ∃ st', accept w (withFlags st ie s) = .next (withFlags st' ie t) := by
  rcases accept_cases h with ⟨e, hd, rfl⟩ | ⟨i, hd, hk, rfl⟩ | ⟨hd, rfl⟩ | ⟨i, hn, hd, hk, hf, rfl⟩
  · exact ⟨_, accept_illegal hd _⟩
  · exact ⟨_, accept_rejected hd hk⟩
  · exact ⟨_, accept_nop hd _⟩
  · exact ⟨_, accept_started hd hn hk hf⟩

/-- A completion under other flags differs in the flags alone. -/
theorem completion_withFlags (i : Instr) (e : Latched → (Nat → Byte) → List Host.Cell) (s : State) (st : Status)
    (ie : Bool) : ∃ st', completion i e (withFlags st ie s) = withFlags st' ie (completion i e s) := by
  unfold completion withFlags
  simp only
  split
  · exact ⟨_, rfl⟩
  · split <;> exact ⟨_, rfl⟩

/-- A completion that goes on is its three-way step. -/
theorem complete_next {i : Instr} {e : Latched → (Nat → Byte) → List Host.Cell} {s : State}
    (hr : (footprints i s.latch).any (fun f => !f.inRange) = false)
    (hf : footprintRefusal s.platform (footprints i s.latch) = none) :
    complete i e s = .next (completion i e s) := by
  simp [complete, hr, hf]

/-- A command under other flags answers a next state where it did, and it differs in the flags alone. -/
theorem exec_withFlags {i : Instr} {s t : State} (st : Status) (ie : Bool) (h : exec i s = .next t) :
    ∃ st', exec i (withFlags st ie s) = .next (withFlags st' ie t) := by
  cases hp : s.phase with
  | idle =>
    rw [exec_idle i _ hp] at h
    rw [exec_idle i (withFlags st ie s) hp]
    exact accept_withFlags st ie h
  | busy =>
    rw [exec_busy i _ hp] at h
    obtain ⟨hr, hf, rfl⟩ := complete_cases h
    obtain ⟨st', hst⟩ := completion_withFlags i (performCells i) s st ie
    exact ⟨st', by rw [exec_busy i (withFlags st ie s) hp, ← hst]; exact complete_next hr hf⟩

/-- A completion reads `L`, and no configuration register (10_state.md R39, R40). -/
theorem completion_withRegs (i : Instr) (e : Latched → (Nat → Byte) → List Host.Cell) (s : State)
    (r : ConfigRegs) : completion i e { s with regs := r } = { completion i e s with regs := r } := by
  unfold completion
  simp only
  split
  · rfl
  · split <;> rfl

/-- In Busy a command does the same under other configuration registers, and leaves those as they are. -/
theorem exec_busy_withRegs {i : Instr} {s t : State} (r : ConfigRegs) (hp : s.phase = .busy)
    (h : exec i s = .next t) : exec i { s with regs := r } = .next { t with regs := r } := by
  rw [exec_busy i s hp] at h
  obtain ⟨hr, hf, rfl⟩ := complete_cases h
  rw [exec_busy i { s with regs := r } hp, ← completion_withRegs]
  exact complete_next hr hf

/-! ## Configuration registers -/

/-- A read after a configuration write: the written word at that register, the old word at every other. -/
theorem readReg_writeConfig {r : Reg} (h1 : r ≠ .ctrl) (h2 : r ≠ .status) (h3 : r ≠ .cmd) (r' : Reg) (v : Word)
    (s : State) : readReg r' (writeConfig r v s) = if r' = r then v else readReg r' s := by
  cases r with
  | ctrl => exact absurd rfl h1
  | status => exact absurd rfl h2
  | cmd => exact absurd rfl h3
  | _ => cases r' <;> rfl

@[simp] theorem readWord_regOffset (r : Reg) (s : State) : readWord (regOffset r) s = readReg r s := by
  simp [readWord]

/-- From 0x40 on every offset is reserved (10_state.md R22). -/
theorem regAt_reserved {o : Byte} (h : 0x40 ≤ o.toNat) : regAt o = none := by
  cases hr : regAt o with
  | none => rfl
  | some r =>
    rw [regAt_some hr] at h
    cases r <;> exact absurd h (by decide)

/-! ## The step of a register access -/

/-- With `rst` released, a step on a write of a named register is that write. -/
theorem step_writeReg {s : State} {r : Reg} {v : Word} {rest : List Input} (hr : s.rst = false)
    (hi : s.inputs = .regWrite (regOffset r) 4 v :: rest) : step s = writeReg r v { s with inputs := rest } := by
  simp [step_input hi, applyInput, hostRegWrite, hr]

/-- A step on a defined read of a register other than STATUS only replies. -/
theorem step_regRead {s : State} {o : Byte} {rest : List Input} (ho : o.toNat % 4 = 0)
    (hn : regAt o ≠ some .status) (hi : s.inputs = .regRead o 4 :: rest) :
    step s = .next { s with inputs := rest, reply := .word (readWord o { s with inputs := rest }) } := by
  simp [step_input hi, applyInput, hostRegRead, (accessDefined_iff o 4).2 ⟨rfl, ho⟩, hn]

/-- The pending inputs are read by no register. -/
@[simp] theorem readWord_inputs (o : Byte) (s : State) (l : List Input) :
    readWord o { s with inputs := l } = readWord o s := by
  unfold readWord
  split
  · rename_i r _; cases r <;> rfl
  · rfl

/-! ## Refusals -/

/-- A footprint byte on the window or on a device refuses the command (93_implementation_defined.md U8, U9). -/
theorem footprintRefusal_of_mem {p : Platform} {fs : List Footprint} {a : Nat} (ha : a ∈ footprintAddresses fs)
    (h : onRegisterWindow p a = true ∨ isDevice p a = true) :
    footprintRefusal p fs = some .footprintOnRegisterWindow ∨ footprintRefusal p fs = some .footprintNotOrdinary := by
  unfold footprintRefusal
  split
  · exact .inl rfl
  · rename_i hw
    have hd : isDevice p a = true := h.resolve_left fun hon => hw (List.any_eq_true.2 ⟨a, ha, hon⟩)
    exact .inr (if_pos (List.any_eq_true.2 ⟨a, ha, hd⟩))

/-- A host memory access that stops, in either direction (logs 10, 11). -/
theorem step_memory_refused {s : State} {a : Word} {v : Byte} {c : Bool} {rest : List Input} {r : Refusal}
    (hi : s.inputs = .memRead a c :: rest ∨ s.inputs = .memWrite a v c :: rest)
    (hr : hostMemoryRefusal s.platform a.toNat = some r) : step s = .refused r := by
  rcases hi with hi | hi
  · simp [step_input hi, applyInput, hostMemRead, hr]
  · simp [step_input hi, applyInput, hostMemWrite, hr]

/-- A register access that is not naturally aligned, or not of 32 bits, stops (10_state.md R23). -/
theorem step_access_refused {s : State} {o : Byte} {n : Nat} {v : Word} {rest : List Input}
    (hn : accessDefined o n = false) (hi : s.inputs = .regRead o n :: rest ∨ s.inputs = .regWrite o n v :: rest) :
    step s = .refused .hostAccessFault := by
  rcases hi with hi | hi
  · simp [step_input hi, applyInput, hostRegRead, hn]
  · simp [step_input hi, applyInput, hostRegWrite, hn]

/-! ## Host writes of memory -/

/-- On a coherent path a host write lands, and taints by its address (70_reset_and_hazards.md R215). -/
theorem step_memWrite {s : State} {a : Word} {v : Byte} {c : Bool} {rest : List Input}
    (hi : s.inputs = .memWrite a v c :: rest) (hr : hostMemoryRefusal s.platform a.toNat = none)
    (hc : pathCoherent s.platform c = true) :
    step s = .next { s with inputs := rest, taint := taintedBy a.toNat s, mem := s.mem.write a.toNat v } := by
  simp [step_input hi, applyInput, hostMemWrite, hr, hc]
  rfl

/-- A tainted command whose accesses are answered OK completes with any value in its destination
(43_control.md R172, second branch). -/
theorem exec_tainted {i : Instr} {s : State} (h : runningAs i s) (hb : busAnswersOK i s) (ht : s.taint = true) :
    exec i s = .next (setDone
      { drawBytes (footprintAddresses (writeFootprints i s.latch)) s with phase := .idle }) := by
  rw [exec_accepted h]
  rcases completion_cases i (performCells i) s with ⟨hbus, _⟩ | ⟨_, _, he⟩ | ⟨_, _, hclean, _⟩
  · simp [busAccepts_of_answers hb] at hbus
  · rw [he]
  · simp [ht] at hclean

/-! ## Coefficient tables -/

/-- A table holds the products of its coefficient (10_state.md R42). -/
@[simp] theorem tableAt_coefTable (k o : Int) (b : Byte) : tableAt (coefTable k o) b = k * (sample b - o) := by
  have hb : b.toNat < 256 := b.isLt
  simp [tableAt, coefTable, sample, List.getD_eq_getElem?_getD, hb]

/-! ## The obligations about one command -/

/-- Settles O16: a completion writes inside `WFP`, and its frame is `completion_frame`. -/
theorem completionFrame : Obligations.CompletionFrame := by
  intro i s t hp h
  rw [exec_busy i s hp] at h
  obtain ⟨-, -, rfl⟩ := complete_cases h
  have hstatus : (completion i (performCells i) s).status.cmdLost = s.status.cmdLost ∧
      (completion i (performCells i) s).status.lastOp = s.status.lastOp := by
    rcases completion_status i (performCells i) s with hs | hs <;> simp [hs]
  obtain ⟨cells, hm, hin⟩ := completion_mem i s
  refine ⟨fun a ha => ?_, by simp [hstatus]⟩
  rw [hm]
  exact read_writeAll_outside cells s.mem a fun c hc hca => ha (hca ▸ hin c hc)

/-- Settles O24: under other flags a command answers the same state but for the flags. -/
theorem noCommandReadsAFlag : Obligations.NoCommandReadsAFlag := by
  intro i s t st ie h
  obtain ⟨st', hu⟩ := exec_withFlags st ie h
  exact ⟨_, hu, rfl, rfl, rfl, rfl, rfl⟩

/-- Settles O29: the write is `writeConfig`, and a completion reads no configuration register. -/
theorem configurationWrites : Obligations.ConfigurationWrites := by
  intro s r v rest h1 h2 h3 hr hi
  have hread := readReg_writeConfig h1 h2 h3
  refine ⟨_, (step_writeReg hr hi).trans (writeReg_config r v _ h1 h2 h3), writeConfig_eq r v _, ?_, ?_, ?_⟩
  · simp [hread]
  · intro r' hne
    rw [readWord_regOffset, hread, if_neg hne, ← readWord_regOffset, readWord_inputs]
  · intro i u hp h
    rw [writeConfig_eq]
    exact exec_busy_withRegs _ hp h

/-- Settles O40: the write lands by `step_memWrite`, and the tainted command ends by `exec_tainted`. -/
theorem hostWriteTaintsTheCommand : Obligations.HostWriteTaintsTheCommand := by
  refine ⟨fun s a v c rest hi hr hc => ?_, fun i s a v rest hrun hi hr ha => ?_⟩
  · exact ⟨_, step_memWrite hi hr hc, rfl, read_write_same _ _ _, fun b hb => read_write_other _ v hb,
      taintedBy_iff _ s⟩
  · have ht : taintedBy a.toNat s = true := (taintedBy_iff _ s).2 (.inr ⟨i, runningCommand_accepted hrun, ha⟩)
    refine ⟨_, step_memWrite hi hr (by simp [pathCoherent]), ht, read_write_same _ _ _,
      fun b hb => read_write_other _ v hb, fun hb => ⟨_, exec_tainted hrun hb ht, rfl, ?_, ?_⟩⟩
    · exact fun b hb => read_anyCells _ _ _ b hb
    · exact fun hout => (read_anyCells_outside _ _ _ _ hout).trans (read_write_same _ _ _)

/-- Settles O57: each table entry is the product it stands for; a negative coefficient moves its sign into the
table. -/
theorem tablesAgreeWithTheFormulas : Obligations.TablesAgreeWithTheFormulas := by
  refine ⟨fun r g b => ⟨?_, ?_, ?_⟩, fun y u v => ⟨?_, ?_, ?_⟩⟩
  · simp [lumaFByTable, lumaF, lumaSum]
  · simp [cbFByTable, cbF, cbSum, sub_eq_add_neg]
  · simp [crFByTable, crF, crSum, sub_eq_add_neg]
  · simp [redFByTable, redF, redSum]
  · simp [greenFByTable, greenF, greenSum]
  · simp [blueFByTable, blueF, blueSum]

/-! ## The obligations about one access -/

/-- Settles O4: the write reaches CMD, and in Idle `writeCmd` runs the decoded command. -/
theorem stepRunsTheDecodedCommand : Obligations.StepRunsTheDecodedCommand := by
  rintro s w rest i ⟨hr, hi⟩ hp hd
  rw [step_writeReg (r := .cmd) hr hi]
  simp [writeReg, writeCmd, hp, hd]

/-- Settles O10: the footprint refuses the checked command, and the address refuses the host's access. -/
theorem accessesThatAreRefused : Obligations.AccessesThatAreRefused := by
  refine ⟨fun i s a hn hp hk ha h => ?_, fun s a v c rest hi => ⟨fun hw => ?_, fun hw hd => ?_⟩⟩
  · rw [exec_idle i s hp]
    exact (footprintRefusal_of_mem ha h).imp (accept_refused (decode_encode i) hn hk)
      (accept_refused (decode_encode i) hn hk)
  · exact step_memory_refused hi (by simp [hostMemoryRefusal, hw])
  · exact step_memory_refused hi (by simp [hostMemoryRefusal, hw, hd])

/-- Settles O27: a write of STATUS is `writeStatus`. -/
theorem statusWriteOneToClear : Obligations.StatusWriteOneToClear := by
  intro s v rest hr hi
  refine ⟨_, step_writeReg (r := .status) hr hi, rfl, ?_, ?_, rfl, ?_, rfl⟩
  · rw [writeStatus_done]; cases v.getLsbD 1 <;> simp
  · rw [writeStatus_err]; cases v.getLsbD 2 <;> simp
  · rw [writeStatus_cmdLost]; cases v.getLsbD 3 <;> simp

/-- Settles O28: a write of CTRL is `writeCtrl`, and its word is the one bit IRQ_EN. -/
theorem ctrlStoresOnlyIrqEn : Obligations.CtrlStoresOnlyIrqEn := by
  refine ⟨fun s v rest hr hi => step_writeReg (r := .ctrl) hr hi, fun s => ?_⟩
  rw [show (0x00 : Byte) = regOffset .ctrl from rfl, readWord_regOffset]
  cases h : s.irqEn <;> simp [readReg, ctrlWord, h, bit]

/-- Settles O51: at reset the block is Idle, no outcome is recorded, and memory is empty. -/
theorem resetMeetsTheInvariants : Obligations.ResetMeetsTheInvariants := by
  refine ⟨⟨fun _ => ⟨rfl, rfl, rfl⟩, ?_, ?_⟩, ?_, ?_, reset_mem_wf⟩
  · simp [State.reset]
  · simp [State.reset]
  · intro h; simp [State.reset] at h
  · exact fun _ => ⟨rfl, rfl, rfl, rfl, rfl⟩

end Sys2Proof.Machine

/-! # The register words and the reserved space

The fields of the CTRL and STATUS words (10_state.md R24 to R26), and what a defined register read does (R23). -/

namespace Sys2Proof.Machine

/-! ## The fields of CTRL and STATUS -/

/-- The four flags are bits 0 to 3 of the STATUS word. -/
theorem statusWord_flags (s : State) :
    (statusWord s).getLsbD 0 = s.busy ∧ (statusWord s).getLsbD 1 = s.status.done ∧
      (statusWord s).getLsbD 2 = s.status.err ∧ (statusWord s).getLsbD 3 = s.status.cmdLost := by
  simp only [statusWord, BitVec.getLsbD_append]
  simp [bit]

/-- ERRCODE and LAST_OP are the fields 11:8 and 15:12 of the STATUS word. -/
theorem statusWord_codes (s : State) :
    (statusWord s).extractLsb' 8 4 = s.status.errCode.code ∧ (statusWord s).extractLsb' 12 4 = s.status.lastOp := by
  simp only [statusWord, BitVec.extractLsb'_append_eq_ite]
  simp

/-- The reserved fields of the STATUS word, 7:4 and 31:16, read 0. -/
theorem statusWord_reserved (s : State) :
    (statusWord s).extractLsb' 4 4 = 0 ∧ (statusWord s).extractLsb' 16 16 = 0 := by
  simp only [statusWord, BitVec.extractLsb'_append_eq_ite]
  simp

/-- The reserved field of the CTRL word, 31:1, reads 0. -/
theorem ctrlWord_reserved (s : State) : (ctrlWord s).extractLsb' 1 31 = 0 := by
  simp only [ctrlWord, BitVec.extractLsb'_append_eq_ite]
  simp

/-- The codes 6 to 15 are never produced (10_state.md R32). -/
theorem errCode_code_le (c : ErrCode) : c.code.toNat ≤ 5 := by cases c <;> decide

theorem busy_eq_decide (s : State) : s.busy = decide (s.phase = .busy) := by
  cases h : s.phase <;> simp [State.busy, h]

/-- Words with one field in common have its bits in common. -/
theorem getLsbD_of_extractLsb'_eq {v v' : Word} {lo n : Nat} (h : v.extractLsb' lo n = v'.extractLsb' lo n) {k : Nat}
    (hk : k < n) : v.getLsbD (lo + k) = v'.getLsbD (lo + k) := by
  have hbit := congrArg (fun x => x.getLsbD k) h
  simpa [BitVec.getLsbD_extractLsb', hk] using hbit

/-! ## Reads and reserved offsets -/

/-- A defined read changes nothing but the reply and, for STATUS, the ghost of log 13 (10_state.md R23). -/
theorem hostRegRead_defined {o : Byte} {s : State} (ho : o.toNat % 4 = 0) :
    ∃ t, hostRegRead o 4 s = .next t ∧
      t = { s with reply := .word (readWord o s), awaited := t.awaited, unobserved := t.unobserved } := by
  have hd := (accessDefined_iff o 4).2 ⟨rfl, ho⟩
  by_cases hs : regAt o = some .status
  · refine ⟨{ observeStatus s with reply := .word (readWord o s) }, by simp [hostRegRead, hd, hs], ?_⟩
    rw [observeStatus_eq]
  · exact ⟨{ s with reply := .word (readWord o s) }, by simp [hostRegRead, hd, hs], rfl⟩

/-- A write at a reserved offset is ignored, with `rst` asserted or released (10_state.md R24). -/
theorem step_write_reserved {s : State} {o : Byte} {v : Word} {rest : List Input} (ho : o.toNat % 4 = 0)
    (hn : regAt o = none) (hi : s.inputs = .regWrite o 4 v :: rest) : step s = .next { s with inputs := rest } := by
  have hd := (accessDefined_iff o 4).2 ⟨rfl, ho⟩
  cases hr : s.rst <;> simp [step_input hi, applyInput, hostRegWrite, hd, hn, hr]

/-! ## The obligations -/

/-- Settles O26: the fields of STATUS, one law for the flags, the codes and the reserved fields each. -/
theorem statusFieldsReadBack : Obligations.StatusFieldsReadBack := by
  intro s
  obtain ⟨hbusy, hdone, herr, hlost⟩ := statusWord_flags s
  obtain ⟨hcode, hop⟩ := statusWord_codes s
  obtain ⟨hlow, hhigh⟩ := statusWord_reserved s
  exact ⟨hbusy.trans (busy_eq_decide s), hdone, herr, hlost, hlow, hcode, hop, hhigh, errCode_code_le _⟩

/-- Settles O30: no register stands at a reserved offset, and a write reads no ignored bit. -/
theorem reservedSpaceReadsZero : Obligations.ReservedSpaceReadsZero := by
  refine ⟨fun s o rest hlo ho hi => ?_, fun s o v rest hlo ho hi => step_write_reserved ho (regAt_reserved hlo) hi,
    fun s => ⟨ctrlWord_reserved s, statusWord_reserved s⟩, fun s v v' h => ?_, fun s v v' h => ?_⟩
  · have hn := regAt_reserved hlo
    rw [step_regRead ho (by simp [hn]) hi]
    simp [readWord, hn]
  · simp only [writeCtrl, h]
  · have h1 : v.getLsbD 1 = v'.getLsbD 1 := getLsbD_of_extractLsb'_eq h (k := 0) (by decide)
    have h2 : v.getLsbD 2 = v'.getLsbD 2 := getLsbD_of_extractLsb'_eq h (k := 1) (by decide)
    have h3 : v.getLsbD 3 = v'.getLsbD 3 := getLsbD_of_extractLsb'_eq h (k := 2) (by decide)
    simp only [writeStatus, h1, h2, h3]

/-- Settles O31: an access that is not defined stops, and a defined read is `hostRegRead_defined`. -/
theorem registerAccessRules : Obligations.RegisterAccessRules := by
  refine ⟨fun s o n v rest h hi => step_access_refused ?_ hi, fun s o rest ho hi => ?_,
    fun s => readWord_regOffset .cmd s, fun w => ⟨rfl, rfl⟩⟩
  · rw [← Bool.not_eq_true, accessDefined_iff, not_and_or]; exact h
  · obtain ⟨t, hstep, ht⟩ := hostRegRead_defined (s := { s with inputs := rest }) ho
    exact ⟨t, (step_input hi).trans hstep, by rw [← readWord_inputs o s rest]; exact ht⟩

end Sys2Proof.Machine

/-! # What a command reads and writes

Overlap (20_memory.md R79); the cells each command's `Perform` writes, one for each sample of its destination, so that
they cover `WFP` and stand at distinct addresses; and that `Perform` reads `RFP` alone (R63, R64, R70). -/

namespace Sys2Proof.Machine

/-! ## Overlap -/

/-- No byte lies in two of the footprints where they are pairwise disjoint (20_memory.md R79). -/
theorem sharesByte_eq_false_iff (fs : List Footprint) :
    sharesByte fs = false ↔ fs.Pairwise fun f g => ∀ a ∈ f.addresses, a ∉ g.addresses := by
  induction fs with
  | nil => simp [sharesByte]
  | cons f fs ih =>
    rw [sharesByte, Bool.or_eq_false_iff, ih, List.pairwise_cons, List.any_eq_false]
    simp only [inFootprints_iff, mem_footprintAddresses]
    exact and_congr_left fun _ => ⟨fun h g hg a ha hag => h a ha ⟨g, hg, hag⟩,
      fun h a ha ⟨g, hg, hag⟩ => h g hg a ha hag⟩

/-- Some byte lies in two of the footprints (20_memory.md R79). -/
theorem sharesByte_iff (fs : List Footprint) : sharesByte fs = true ↔
    ∃ f g, List.Sublist [f, g] fs ∧ ∃ a ∈ f.addresses, a ∈ g.addresses := by
  rw [← Bool.not_eq_false, sharesByte_eq_false_iff, List.pairwise_iff_forall_sublist]
  push Not
  rfl

/-- Overlapping by its two conditions. -/
theorem overlaps_iff (i : Instr) (l : Latched) : overlaps i l = true ↔
    (∃ a ∈ footprintAddresses (writeFootprints i l), a ∈ footprintAddresses (readFootprints i l)) ∨
      sharesByte (writeFootprints i l) = true := by
  simp only [overlaps, Bool.or_eq_true, List.any_eq_true, inFootprints_iff]

/-- The destination of a command that does not overlap has no byte twice. -/
theorem sharesByte_of_not_overlaps {i : Instr} {l : Latched} (h : overlaps i l = false) :
    sharesByte (writeFootprints i l) = false :=
  (Bool.or_eq_false_iff.1 h).2

/-! ## The planes of a planar picture -/

/-- The three planes of a 4:2:0 picture (20_memory.md R62, R68). -/
inductive Plane where
  | y
  | u
  | v

/-- The rows of a plane (30_encoding.md R94). -/
def Latched.planeRows (l : Latched) : Plane → Nat
  | .y => l.H
  | .u => l.CH
  | .v => l.CH

/-- The samples in a row of a plane (30_encoding.md R94). -/
def Latched.planeCols (l : Latched) : Plane → Nat
  | .y => l.W
  | .u => l.CW
  | .v => l.CW

/-- The base of a destination plane (10_state.md R38). -/
def Latched.dstBase (l : Latched) : Plane → Word
  | .y => l.planes.dstYBase
  | .u => l.planes.dstUBase
  | .v => l.planes.dstVBase

/-- The stride of a destination plane (10_state.md R38). -/
def Latched.dstStride (l : Latched) : Plane → Word
  | .y => l.planes.dstYStride
  | .u => l.planes.dstUVStride
  | .v => l.planes.dstUVStride

/-- A sample of a destination plane (20_memory.md R68). -/
def Latched.dstAt (l : Latched) (p : Plane) (row col : Nat) : Nat :=
  planeAddress (l.dstBase p) (l.dstStride p) 1 row col

/-- A destination plane's footprint (20_memory.md R62). -/
def dstFootprint (l : Latched) (p : Plane) : Footprint :=
  planeFootprint (l.dstBase p) (l.dstStride p) (l.planeRows p) (l.planeCols p)

/-- The planes in the order of the footprint lists. -/
def allPlanes : List Plane := [.y, .u, .v]

theorem mem_allPlanes (p : Plane) : p ∈ allPlanes := by cases p <;> simp [allPlanes]

theorem dstFootprints_eq_map (l : Latched) : dstFootprints l = allPlanes.map (dstFootprint l) := rfl

/-- A destination plane's footprint is its samples. -/
theorem mem_dstFootprint (l : Latched) (p : Plane) (a : Nat) : a ∈ (dstFootprint l p).addresses ↔
    ∃ r < l.planeRows p, ∃ k < l.planeCols p, a = l.dstAt p r k := by
  simp only [mem_addresses, dstFootprint, planeFootprint, Latched.dstAt, planeAddress, one_mul]

/-- The destination is the union of its planes. -/
theorem mem_dstFootprints (l : Latched) (a : Nat) :
    a ∈ footprintAddresses (dstFootprints l) ↔ ∃ p, a ∈ (dstFootprint l p).addresses := by
  rw [mem_footprintAddresses, dstFootprints_eq_map]
  constructor
  · rintro ⟨f, hf, ha⟩
    obtain ⟨p, -, rfl⟩ := List.mem_map.1 hf
    exact ⟨p, ha⟩
  · rintro ⟨p, ha⟩
    exact ⟨_, List.mem_map_of_mem (mem_allPlanes p), ha⟩

/-- Two destination planes have no byte in common where the destination does not overlap itself (20_memory.md R79). -/
theorem dstFootprint_disjoint {l : Latched} (h : sharesByte (dstFootprints l) = false) {p q : Plane} (hpq : p ≠ q)
    {a : Nat} (hp : a ∈ (dstFootprint l p).addresses) : a ∉ (dstFootprint l q).addresses := by
  rw [sharesByte_eq_false_iff, dstFootprints_eq_map, List.pairwise_map] at h
  have hsymm : Std.Symm fun p q => ∀ a ∈ (dstFootprint l p).addresses, a ∉ (dstFootprint l q).addresses :=
    ⟨fun _ _ hd a hq hp => hd a hp hq⟩
  exact h.forall (mem_allPlanes p) (mem_allPlanes q) hpq a hp

/-- Every destination plane has the stride its rows need (60_exceptions.md R181). -/
theorem dstStride_fits {l : Latched} (hy : l.W ≤ l.planes.dstYStride.toNat)
    (huv : l.CW ≤ l.planes.dstUVStride.toNat) (p : Plane) : l.planeCols p ≤ (l.dstStride p).toNat := by
  cases p
  · exact hy
  · exact huv
  · exact huv

/-! ## The cells a command writes -/

/-- A write of `val` at a sample of a destination plane. -/
def IsDstCell (l : Latched) (val : Plane → Nat → Nat → Byte) (c : Host.Cell) : Prop :=
  ∃ p, ∃ r < l.planeRows p, ∃ k < l.planeCols p, c = (l.dstAt p r k, val p r k)

/-- Cells at one address are one cell, where rows do not run into each other and planes do not overlap. -/
theorem IsDstCell.unique {l : Latched} {val : Plane → Nat → Nat → Byte} {c d : Host.Cell}
    (hs : ∀ p, l.planeCols p ≤ (l.dstStride p).toNat) (ho : sharesByte (dstFootprints l) = false)
    (hc : IsDstCell l val c) (hd : IsDstCell l val d) (h : c.1 = d.1) : c = d := by
  obtain ⟨p, r, hr, k, hk, rfl⟩ := hc
  obtain ⟨q, r', hr', k', hk', rfl⟩ := hd
  by_cases hpq : p = q
  · subst hpq
    obtain ⟨rfl, rfl, -⟩ := planeAddress_injective (ch := 0) (ch' := 0) (by simpa using hs p) hk hk'
      Nat.one_pos Nat.one_pos (congrArg (· + 0) h)
    rfl
  · have hp := (mem_dstFootprint l p _).2 ⟨r, hr, k, hk, rfl⟩
    exact absurd ((mem_dstFootprint l q _).2 ⟨r', hr', k', hk', h⟩) (dstFootprint_disjoint ho hpq hp)

/-- The sample CSC_FWD computes for a plane (40_csc_forward.md R110 to R113). -/
def forwardSample (l : Latched) (rd : Nat → Byte) : Plane → Nat → Nat → Byte
  | .y, row, col => ofPixel lumaF rd (l.rgbaAt row col)
  | .u, i, j => ofPixel cbF rd (l.rgbaAt (2 * i) (2 * j))
  | .v, i, j => ofPixel crF rd (l.rgbaAt (2 * i) (2 * j))

/-- The sample REPACK copies to a plane (42_row_resampler.md R153). -/
def repackSample (l : Latched) (rd : Nat → Byte) : Plane → Nat → Nat → Byte
  | .y, row, col => rd (l.srcYAt row col)
  | .u, i, j => rd (l.srcUAt i j)
  | .v, i, j => rd (l.srcVAt i j)

/-- The byte CSC_INV computes for a channel of a pixel (41_csc_inverse.md R131, R133). -/
def inverseChannel (l : Latched) (rd : Nat → Byte) (row col : Nat) : Nat → Byte
  | 0 => ofSamples redF l rd row col
  | 1 => ofSamples greenF l rd row col
  | 2 => ofSamples blueF l rd row col
  | _ => 255

/-- A sweep of one luma and two chroma planes is a cell for each sample. -/
theorem isDstCell_iff (l : Latched) (val : Plane → Nat → Nat → Byte) (c : Host.Cell) : IsDstCell l val c ↔
    (∃ row < l.H, ∃ col < l.W, c = (l.dstYAt row col, val .y row col)) ∨
      ∃ i < l.CH, ∃ j < l.CW, c = (l.dstUAt i j, val .u i j) ∨ c = (l.dstVAt i j, val .v i j) := by
  constructor
  · rintro ⟨p | p | p, r, hr, k, hk, rfl⟩
    · exact .inl ⟨r, hr, k, hk, rfl⟩
    · exact .inr ⟨r, hr, k, hk, .inl rfl⟩
    · exact .inr ⟨r, hr, k, hk, .inr rfl⟩
  · rintro (⟨r, hr, k, hk, rfl⟩ | ⟨r, hr, k, hk, rfl | rfl⟩)
    · exact ⟨.y, r, hr, k, hk, rfl⟩
    · exact ⟨.u, r, hr, k, hk, rfl⟩
    · exact ⟨.v, r, hr, k, hk, rfl⟩

/-- CSC_FWD writes its sample at every place of the destination. -/
theorem mem_forwardCells (l : Latched) (rd : Nat → Byte) (c : Host.Cell) :
    c ∈ forwardCells l rd ↔ IsDstCell l (forwardSample l rd) c := by
  rw [forwardCells, List.mem_append, mem_forwardLuma, mem_forwardChroma, isDstCell_iff]
  rfl

/-- REPACK writes its sample at every place of the destination. -/
theorem mem_repackCells (l : Latched) (rd : Nat → Byte) (c : Host.Cell) :
    c ∈ repackCells l rd ↔ IsDstCell l (repackSample l rd) c := by
  rw [repackCells, List.mem_append, mem_repackLuma, mem_repackChroma, isDstCell_iff]
  rfl

/-- CSC_INV writes the four channels of a pixel. -/
theorem mem_inversePixel (l : Latched) (rd : Nat → Byte) (row col : Nat) (c : Host.Cell) :
    c ∈ inversePixel l rd row col ↔ ∃ ch < 4, c = (l.rgbaAt row col + ch, inverseChannel l rd row col ch) := by
  simp only [inversePixel, List.mem_cons, List.not_mem_nil, or_false]
  constructor
  · rintro (rfl | rfl | rfl | rfl)
    · exact ⟨0, by decide, rfl⟩
    · exact ⟨1, by decide, rfl⟩
    · exact ⟨2, by decide, rfl⟩
    · exact ⟨3, by decide, rfl⟩
  · rintro ⟨ch, hch, rfl⟩
    interval_cases ch <;> simp [inverseChannel]

/-! ## Every destination byte is written -/

/-- `Perform` writes every byte of `WFP`: with `performCells_in_destination`, exactly those. -/
theorem performCells_cover {i : Instr} {l : Latched} {a : Nat}
    (h : a ∈ footprintAddresses (writeFootprints i l)) (rd : Nat → Byte) :
    ∃ c ∈ performCells i l rd, c.1 = a := by
  have hdst : ∀ {val}, a ∈ footprintAddresses (dstFootprints l) → ∃ c, IsDstCell l val c ∧ c.1 = a := by
    intro val hd
    obtain ⟨p, hp⟩ := (mem_dstFootprints l a).1 hd
    obtain ⟨r, hr, k, hk, rfl⟩ := (mem_dstFootprint l p a).1 hp
    exact ⟨_, ⟨p, r, hr, k, hk, rfl⟩, rfl⟩
  cases i with
  | nop => simp [writeFootprints, footprintAddresses] at h
  | cscFwd => exact (hdst h).imp fun c hc => ⟨(mem_forwardCells l rd c).2 hc.1, hc.2⟩
  | cscInv =>
    have ha : a ∈ (rgbaFootprint l).addresses := by simpa [writeFootprints, mem_footprintAddresses] using h
    obtain ⟨row, hr, t, ht, rfl⟩ := (mem_addresses _ _).1 ha
    simp only [rgbaFootprint, planeFootprint] at hr ht ⊢
    refine ⟨_, (mem_inverseCells l rd _).2 ⟨row, hr, t / 4, by omega, (mem_inversePixel ..).2
      ⟨t % 4, by omega, rfl⟩⟩, ?_⟩
    simp only [Latched.rgbaAt, planeAddress]
    omega
  | repack => exact (hdst h).imp fun c hc => ⟨(mem_repackCells l rd c).2 hc.1, hc.2⟩

/-! ## No two writes at one address -/

/-- Two writes of a command that checked out and does not overlap are at two addresses. -/
theorem performCells_unique {i : Instr} {l : Latched} {rd : Nat → Byte} {c d : Host.Cell} (hn : i ≠ .nop)
    (hk : checkCommand i l = .none) (ho : overlaps i l = false) (hc : c ∈ performCells i l rd)
    (hd : d ∈ performCells i l rd) (h : c.1 = d.1) : c = d := by
  obtain ⟨-, hs, -⟩ := check_none hn hk
  have hshare := sharesByte_of_not_overlaps ho
  cases i with
  | nop => exact absurd rfl hn
  | cscFwd =>
    obtain ⟨-, hy, huv⟩ : _ ∧ l.W ≤ l.planes.dstYStride.toNat ∧ l.CW ≤ l.planes.dstUVStride.toNat := by
      simpa [strideReq] using hs
    exact IsDstCell.unique (dstStride_fits hy huv) hshare ((mem_forwardCells l rd c).1 hc)
      ((mem_forwardCells l rd d).1 hd) h
  | cscInv =>
    obtain ⟨row, -, col, hcol, hc⟩ := (mem_inverseCells l rd c).1 hc
    obtain ⟨row', -, col', hcol', hd⟩ := (mem_inverseCells l rd d).1 hd
    obtain ⟨ch, hch, rfl⟩ := (mem_inversePixel ..).1 hc
    obtain ⟨ch', hch', rfl⟩ := (mem_inversePixel ..).1 hd
    obtain ⟨-, -, hfit⟩ : _ ∧ _ ∧ 4 * l.W ≤ l.planes.rgbaStride.toNat := by simpa [strideReq] using hs
    obtain ⟨rfl, rfl, rfl⟩ := planeAddress_injective hfit hcol hcol' hch hch' h
    rfl
  | repack =>
    obtain ⟨-, -, hy, huv⟩ : _ ∧ _ ∧ l.W ≤ l.planes.dstYStride.toNat ∧ l.CW ≤ l.planes.dstUVStride.toNat := by
      simpa [strideReq] using hs
    exact IsDstCell.unique (dstStride_fits hy huv) hshare ((mem_repackCells l rd c).1 hc)
      ((mem_repackCells l rd d).1 hd) h

/-! ## The bytes `Perform` reads -/

/-- A function of a pixel reads three bytes (20_memory.md R66). -/
theorem ofPixel_congr (f : Byte → Byte → Byte → Byte) {rd rd' : Nat → Byte} {p : Nat}
    (h : ∀ ch < 3, rd (p + ch) = rd' (p + ch)) : ofPixel f rd p = ofPixel f rd' p := by
  have h0 := h 0 (by decide)
  rw [Nat.add_zero] at h0
  rw [ofPixel, ofPixel, h0, h 1 (by decide), h 2 (by decide)]

/-- CSC_FWD reads the R, G and B bytes of its pixels, and no other (40_csc_forward.md R114). -/
theorem forwardCells_congr {l : Latched} {rd rd' : Nat → Byte}
    (h : ∀ row < l.H, ∀ col < l.W, ∀ ch < 3, rd (l.rgbaAt row col + ch) = rd' (l.rgbaAt row col + ch)) :
    forwardCells l rd = forwardCells l rd' := by
  have hpix : ∀ f, ∀ row < l.H, ∀ col < l.W, ofPixel f rd (l.rgbaAt row col) = ofPixel f rd' (l.rgbaAt row col) :=
    fun f row hr col hc => ofPixel_congr f (h row hr col hc)
  have hluma : forwardLuma l rd = forwardLuma l rd' := by
    refine List.flatMap_congr fun row hr => List.map_congr_left fun col hc => ?_
    rw [hpix _ row (List.mem_range.1 hr) col (List.mem_range.1 hc)]
  have hchroma : forwardChroma l rd = forwardChroma l rd' := by
    refine List.flatMap_congr fun i hi => List.flatMap_congr fun j hj => ?_
    have hpix' := fun f => hpix f _ (topLeft_row l (List.mem_range.1 hi)) _ (topLeft_col l (List.mem_range.1 hj))
    rw [hpix', hpix']
  rw [forwardCells, forwardCells, hluma, hchroma]

/-- CSC_INV reads source samples only (41_csc_inverse.md R130, R132). -/
theorem inverseCells_congr {l : Latched} {rd rd' : Nat → Byte}
    (h : ∀ a ∈ footprintAddresses (srcFootprints l), rd a = rd' a) : inverseCells l rd = inverseCells l rd' := by
  refine List.flatMap_congr fun row hr => List.flatMap_congr fun col hc => ?_
  rw [List.mem_range] at hr hc
  have hsamples : ∀ f, ofSamples f l rd row col = ofSamples f l rd' row col := fun f => by
    rw [ofSamples, ofSamples, h _ (srcY_mem l hr hc), h _ (srcU_mem l (chroma_row l hr) (chroma_col l hc)),
      h _ (srcV_mem l (chroma_row l hr) (chroma_col l hc))]
  simp only [inversePixel, hsamples]

/-- REPACK reads source samples only (42_row_resampler.md R153). -/
theorem repackCells_congr {l : Latched} {rd rd' : Nat → Byte}
    (h : ∀ a ∈ footprintAddresses (srcFootprints l), rd a = rd' a) : repackCells l rd = repackCells l rd' := by
  have hluma : repackLuma l rd = repackLuma l rd' := by
    refine List.flatMap_congr fun row hr => List.map_congr_left fun col hc => ?_
    rw [h _ (srcY_mem l (List.mem_range.1 hr) (List.mem_range.1 hc))]
  have hchroma : repackChroma l rd = repackChroma l rd' := by
    refine List.flatMap_congr fun i hi => List.flatMap_congr fun j hj => ?_
    rw [h _ (srcU_mem l (List.mem_range.1 hi) (List.mem_range.1 hj)),
      h _ (srcV_mem l (List.mem_range.1 hi) (List.mem_range.1 hj))]
  rw [repackCells, repackCells, hluma, hchroma]

/-- `Perform` reads no byte outside `RFP` (20_memory.md R63). -/
theorem performCells_congr {i : Instr} {l : Latched} {rd rd' : Nat → Byte}
    (h : ∀ a ∈ footprintAddresses (readFootprints i l), rd a = rd' a) :
    performCells i l rd = performCells i l rd' := by
  cases i with
  | nop => rfl
  | cscFwd => exact forwardCells_congr fun row hr col hc ch hch => h _ (rgba_mem l hr hc (by omega))
  | cscInv => exact inverseCells_congr h
  | repack => exact repackCells_congr h

/-! ## Memory after a list of writes -/

/-- After the same writes, a written byte reads the same whatever memory was before. -/
theorem read_writeAll_written (cs : List Host.Cell) (m m' : Memory) {a : Nat} (h : ∃ c ∈ cs, c.1 = a) :
    (Memory.writeAll m cs).read a = (Memory.writeAll m' cs).read a := by
  induction cs generalizing m m' with
  | nil => simp at h
  | cons c cs ih =>
    simp only [Memory.writeAll]
    by_cases hlater : ∃ d ∈ cs, d.1 = a
    · exact ih _ _ hlater
    · have hout : ∀ d ∈ cs, d.1 ≠ a := fun d hd he => hlater ⟨d, hd, he⟩
      obtain ⟨d, hd, rfl⟩ := h
      obtain rfl : d = c := (List.mem_cons.1 hd).resolve_right fun hd => hout d hd rfl
      simp [read_writeAll_outside cs _ _ hout]

/-- Writes at distinct addresses may be made in any order (43_control.md R172). -/
theorem read_writeAll_perm {cs ds : List Host.Cell} (hp : cs.Perm ds)
    (hu : ∀ c ∈ ds, ∀ d ∈ ds, c.1 = d.1 → c = d) (m : Memory) (a : Nat) :
    (Memory.writeAll m cs).read a = (Memory.writeAll m ds).read a := by
  by_cases h : ∃ d ∈ ds, d.1 = a
  · obtain ⟨d, hd, rfl⟩ := h
    have hv : ∀ c ∈ ds, c.1 = d.1 → c.2 = d.2 := fun c hc he => congrArg Prod.snd (hu c hc d hd he)
    rw [read_writeAll_agreed ds m d.1 d.2 ⟨d, hd, rfl⟩ hv]
    exact read_writeAll_agreed cs m d.1 d.2 ⟨d, hp.mem_iff.2 hd, rfl⟩ fun c hc => hv c (hp.mem_iff.1 hc)
  · have hout : ∀ d ∈ ds, d.1 ≠ a := fun d hd he => h ⟨d, hd, he⟩
    rw [read_writeAll_outside ds m a hout, read_writeAll_outside cs m a fun c hc => hout c (hp.mem_iff.1 hc)]

/-- A completion over another memory in which `Perform` writes the same bytes leaves the same destination. -/
theorem completion_withMem_read {i : Instr} {s : State} {m : Memory}
    (hcells : performCells i s.latch m.read = performCells i s.latch s.mem.read) {a : Nat}
    (ha : a ∈ footprintAddresses (writeFootprints i s.latch)) (hw : busOK s.platform a .write = true) :
    (completion i (performCells i) { s with mem := m }).mem.read a =
      (completion i (performCells i) s).mem.read a := by
  unfold completion
  simp only
  split
  · have hd := List.mem_filter (p := fun b => busOK s.platform b .write) |>.2 ⟨ha, hw⟩
    exact (read_anyCells _ _ _ a hd).trans (read_anyCells _ _ _ a hd).symm
  · split
    · exact (read_anyCells _ _ _ a ha).trans (read_anyCells _ _ _ a ha).symm
    · simp only [setDone_mem, hcells]
      exact read_writeAll_written _ _ _ (performCells_cover ha _)

/-! ## The obligations about a command's bytes -/

/-- Settles O18: over the other memory `Perform` writes the same cells, and they cover the destination. -/
theorem onlySourceBytesMatter : Obligations.OnlySourceBytesMatter := by
  intro i s t t' m hp hread h h' a ha hw
  rw [exec_busy i s hp] at h
  rw [exec_busy i { s with mem := m } hp] at h'
  obtain ⟨-, -, rfl⟩ := complete_cases h
  obtain ⟨-, -, rfl⟩ := complete_cases h'
  exact completion_withMem_read (performCells_congr hread) ha hw

/-- Settles O21, by `overlaps_iff` and `sharesByte_iff`; in place the first luma sample is read and written. -/
theorem overlapIsASharedByte : Obligations.OverlapIsASharedByte := by
  refine ⟨fun i l => by rw [overlaps_iff, sharesByte_iff], fun l hw hh hy _ _ hys _ => ?_⟩
  have hW : 0 < l.W := Nat.pos_of_ne_zero fun h => hw (BitVec.eq_of_toNat_eq h)
  have hH : 0 < l.H := Nat.pos_of_ne_zero fun h => hh (BitVec.eq_of_toNat_eq h)
  have hsame : l.dstYAt 0 0 = l.srcYAt 0 0 := by rw [Latched.dstYAt, Latched.srcYAt, hy, hys]
  exact (overlaps_iff _ l).2 (.inl ⟨_, dstY_mem l hH hW, hsame ▸ srcY_mem l hH hW⟩)

/-- Settles O23: the cells stand at distinct addresses, so every order of them leaves the same bytes. -/
theorem writeOrderDoesNotMatter : Obligations.WriteOrderDoesNotMatter := by
  intro i s cells hclean hperm
  refine ⟨_, exec_clean hclean, fun a => (read_writeAll_perm hperm ?_ s.mem a).symm⟩
  obtain ⟨⟨-, hn, -, hk, -⟩, -, ho, -⟩ := hclean
  exact fun c hc d hd => performCells_unique hn hk ho hc hd

end Sys2Proof.Machine

/-! # Memory as the host reads and writes it

Host accesses in either phase, on and off a coherent path (20_memory.md R73, R74, R77), and which results a host read
returns before and after the observation of completion (70_reset_and_hazards.md R217). -/

namespace Sys2Proof.Machine

/-! ## The step of a host memory access -/

/-- Whether a byte is settled does not depend on the pending inputs. -/
theorem unsettled_inputs (s : State) (l : List Input) (a : Nat) :
    unsettled { s with inputs := l } a = unsettled s a :=
  rfl

/-- A host read of an unsettled byte, or off a coherent path, replies any value (20_memory.md R74, R77). -/
theorem step_memRead_any {s : State} {a : Word} {c : Bool} {rest : List Input} (hi : s.inputs = .memRead a c :: rest)
    (hr : hostMemoryRefusal s.platform a.toNat = none)
    (h : unsettled s a.toNat = true ∨ pathCoherent s.platform c = false) :
    step s = .next (replyAny a.toNat { s with inputs := rest }) := by
  rw [step_input hi]
  rcases h with h | h <;> simp [applyInput, hostMemRead, hr, h, unsettled_inputs]

/-- A host read of a settled byte on a coherent path replies memory's. -/
theorem step_memRead_value {s : State} {a : Word} {c : Bool} {rest : List Input} (hi : s.inputs = .memRead a c :: rest)
    (hr : hostMemoryRefusal s.platform a.toNat = none) (hu : unsettled s a.toNat = false)
    (hc : pathCoherent s.platform c = true) :
    step s = .next { s with inputs := rest, reply := .byte (s.mem.read a.toNat) } := by
  simp [step_input hi, applyInput, hostMemRead, hr, hu, hc, unsettled_inputs]

/-- Off a coherent path a host write leaves any value at its byte (20_memory.md R77). -/
theorem step_memWrite_incoherent {s : State} {a : Word} {v : Byte} {c : Bool} {rest : List Input}
    (hi : s.inputs = .memWrite a v c :: rest) (hr : hostMemoryRefusal s.platform a.toNat = none)
    (hc : pathCoherent s.platform c = false) :
    step s = .next (drawBytes [a.toNat] { s with inputs := rest, taint := taintedBy a.toNat s }) := by
  simp only [step_input hi, applyInput, hostMemWrite, hr, hc]
  rfl

/-- An access that says so is on a coherent path. -/
@[simp] theorem pathCoherent_true (p : Platform) : pathCoherent p true = true := Bool.or_true _

/-- In Busy the unsettled bytes are those of `WFP` (20_memory.md R74). -/
theorem unsettled_running {i : Instr} {s : State} (h : runningAs i s) (a : Nat) :
    unsettled s a = true ↔ a ∈ footprintAddresses (writeFootprints i s.latch) := by
  rw [unsettled_accepted h, inFootprints_iff]

/-! ## Observation -/

/-- A step on a read of STATUS replies its word, and the host has observed what it shows. -/
theorem step_statusRead {s : State} {rest : List Input} (hi : s.inputs = .regRead 0x04 4 :: rest) :
    step s = .next { observeStatus { s with inputs := rest } with reply := .word (statusWord s) } := by
  have hs : (0x04 : Byte) = regOffset .status := rfl
  rw [step_input hi, hs]
  simp [applyInput, hostRegRead, readReg]

/-- Observing an outcome settles the bytes of the command whose outcome STATUS shows. -/
theorem unsettled_observeStatus {s : State} (hp : s.phase = .idle) (ho : (s.status.done || s.status.err) = true)
    {a : Nat} (ha : a ∈ footprintAddresses s.awaited) : unsettled (observeStatus s) a = false := by
  rw [← inFootprints_iff] at ha
  rw [← Bool.not_eq_true, unsettled_idle (by simpa using hp)]
  simp [observeStatus, hp, ho, ha, footprintAddresses]

/-- Where no outcome is awaited a STATUS read settles nothing. -/
theorem observeStatus_nothingAwaited {s : State} (h : s.awaited = []) : observeStatus s = s := by
  unfold observeStatus
  split
  · split
    · cases s; simp_all [inFootprints]
    · rfl
  · rfl

/-- `t` is Idle with the inputs `rest` pending, and what `s` awaited was lost to it unobserved (log 13). -/
structure OutcomeLost (rest : List Input) (s t : State) : Prop where
  phase : t.phase = .idle
  inputs : t.inputs = rest
  platform : t.platform = s.platform
  draws : t.draws = s.draws
  awaited : t.awaited = []
  unobserved : t.unobserved = footprintAddresses s.awaited ++ s.unobserved

/-- A word that fails its check is rejected with the check's code (60_exceptions.md R182). -/
theorem accept_checkFails {w : Word} {s : State} (h : check w (latchOperands w s.regs) ≠ .none) :
    accept w s = .next (raiseError (check w (latchOperands w s.regs)) (beginAccept w s)) := by
  cases hd : decode w with
  | error e => rw [check_of_illegal hd]; exact accept_illegal hd s
  | ok i => rw [check_of_decode hd] at h ⊢; exact accept_rejected hd h

/-- A rejected word loses the outcome the host awaited (log 13). -/
theorem step_rejected_losesOutcome {s : State} {w : Word} {rest : List Input} (hp : s.phase = .idle)
    (hc : cmdWriteNext w rest s) (hk : check w (latchOperands w s.regs) ≠ .none) :
    ∃ t, step s = .next t ∧ OutcomeLost rest s t := by
  obtain ⟨hr, hi⟩ := hc
  have hcmd : writeReg .cmd w { s with inputs := rest } = accept w { s with inputs := rest } := writeCmd_idle w _ hp
  rw [step_writeReg hr hi, hcmd, accept_checkFails (by exact hk)]
  exact ⟨_, rfl, ⟨hp, rfl, rfl, rfl, rfl, rfl⟩⟩

/-- A reset in Idle loses the outcome the host awaited (log 13). -/
theorem step_reset_losesOutcome {s : State} {rest : List Input} (hp : s.phase = .idle)
    (hi : s.inputs = .rstAssert :: rest) : ∃ t, step s = .next t ∧ OutcomeLost rest s t := by
  have hn : runningCommand { s with inputs := rest } = none := runningCommand_idle hp
  refine ⟨{ blockReset { s with inputs := rest } with rst := true }, ?_, ⟨rfl, rfl, rfl, rfl, rfl, rfl⟩⟩
  rw [step_input hi]
  simp only [applyInput, assertReset, hn]

/-- A run of one step. -/
theorem run_one {s t : State} (h : step s = .next t) : Sys2Proof.core.run 1 s = .next t :=
  run_succ h

/-- After a lost outcome a STATUS read settles nothing: an unsettled byte still reads as any value. -/
theorem OutcomeLost.read_any {s t : State} {a : Word}
    (h : OutcomeLost [.regRead 0x04 4, .memRead a true] s t) (hr : hostMemoryRefusal s.platform a.toNat = none)
    (ha : a.toNat ∈ footprintAddresses s.awaited ∨ a.toNat ∈ s.unobserved) :
    ∃ u, Sys2Proof.core.run 2 t = .next u ∧ u.reply = .byte (Config.anyByte s.draws a.toNat) := by
  have hread := step_statusRead h.inputs
  rw [observeStatus_nothingAwaited (by exact h.awaited)] at hread
  have hopen : unsettled t a.toNat = true :=
    (unsettled_idle h.phase _).2 (.inr (h.unobserved ▸ List.mem_append.2 ha))
  rw [run_succ hread, ← h.draws]
  exact ⟨_, run_one (step_memRead_any rfl (h.platform ▸ hr) (.inl hopen)), rfl⟩

/-- The engine's turn, given as an input, completes the accepted command. -/
theorem step_engine_accepted {i : Instr} {s t : State} (hrun : runningAs i s) (h : exec i s = .next t)
    (rest : List Input) : step { s with inputs := .engine :: rest } = .next { t with inputs := rest } := by
  rw [exec_accepted hrun, Host.Outcome.next.injEq] at h
  rw [← h, ← completion_inputs, step_input rfl]
  exact (engineTurn_accepted (s := { s with inputs := rest }) hrun).trans (exec_accepted hrun)

/-- An accepted command completes with an outcome in STATUS, which the host awaits (43_control.md R172; log 13). -/
theorem exec_accepted_outcome {i : Instr} {s : State} (hrun : runningAs i s) :
    ∃ t, exec i s = .next t ∧ t.phase = .idle ∧ (t.status.done || t.status.err) = true ∧
      t.awaited = writeFootprints i s.latch ∧ t.platform = s.platform := by
  refine ⟨_, exec_accepted hrun, completion_phase .., ?_, ?_, completion_platform ..⟩
  · rcases completion_status i (performCells i) s with h | h <;> simp [h]
  · obtain ⟨-, -, -, -, -, hw⟩ := hrun
    rw [completion_awaited, hw]

/-- A read of STATUS, then one of an awaited byte, replies what memory holds (70_reset_and_hazards.md R217). -/
theorem read_afterObservation {s : State} {a : Word} (hi : s.inputs = [.regRead 0x04 4, .memRead a true])
    (hp : s.phase = .idle) (ho : (s.status.done || s.status.err) = true)
    (ha : a.toNat ∈ footprintAddresses s.awaited) (hr : hostMemoryRefusal s.platform a.toNat = none) :
    ∃ u, Sys2Proof.core.run 2 s = .next u ∧ u.reply = .byte (s.mem.read a.toNat) := by
  rw [run_succ (step_statusRead hi)]
  have hsettled := unsettled_observeStatus (s := { s with inputs := [.memRead a true] }) hp ho ha
  have hcoherent := pathCoherent_true (observeStatus { s with inputs := [.memRead a true] }).platform
  exact ⟨_, run_one (step_memRead_value (rest := []) (by simp) (by simpa using hr) hsettled hcoherent), by simp⟩

/-! ## Any value in the destination -/

/-- An overlapping or tainted command whose accesses are answered OK completes with any value in its destination
(43_control.md R172, second branch; `exec_tainted` is its taint half). -/
theorem exec_anyDestination {i : Instr} {s : State} (h : runningAs i s) (hb : busAnswersOK i s)
    (hot : overlaps i s.latch = true ∨ s.taint = true) :
    exec i s = .next (setDone
      { drawBytes (footprintAddresses (writeFootprints i s.latch)) s with phase := .idle }) := by
  rw [exec_accepted h]
  rcases completion_cases i (performCells i) s with ⟨hbus, _⟩ | ⟨_, _, he⟩ | ⟨_, hno, hclean, _⟩
  · simp [busAccepts_of_answers hb] at hbus
  · rw [he]
  · simp [hno, hclean] at hot

/-! ## The obligations about host accesses and their results -/

/-- Settles O22: the destination is one draw, and a draw changes no other byte. -/
theorem overlapOrTaintGivesAnyValue : Obligations.OverlapOrTaintGivesAnyValue := by
  intro i s hrun hb hot
  exact ⟨_, exec_anyDestination hrun hb hot, rfl, rfl, rfl, fun a ha => read_anyCells _ _ _ a ha,
    fun a ha => read_anyCells_outside _ _ _ a ha⟩

/-- Settles O41: in Busy a byte is unsettled exactly where it is in `WFP`. -/
theorem hostReadInBusy : Obligations.HostReadInBusy := by
  intro i s a rest hrun hi hr
  by_cases hu : a.toNat ∈ footprintAddresses (writeFootprints i s.latch)
  · have hs := (unsettled_running hrun _).2 hu
    exact ⟨_, step_memRead_any hi hr (.inl hs), rfl, fun _ => ⟨rfl, rfl⟩, fun hn => absurd hu hn⟩
  · have hs : unsettled s a.toNat = false := by rw [← Bool.not_eq_true, unsettled_running hrun]; exact hu
    exact ⟨_, step_memRead_value hi hr hs (pathCoherent_true _), rfl, fun hn => absurd hn hu,
      fun _ => ⟨rfl, rfl⟩⟩

/-- Settles O42: the completed command is awaited until a STATUS read settles it, and a lost outcome settles nothing. -/
theorem resultsAreReadAfterObservation : Obligations.ResultsAreReadAfterObservation := by
  refine ⟨fun i s a hrun hr ha => ?_, fun s a c rest hp hi hr hc => ⟨fun h1 h2 => ?_, fun h => ?_⟩,
    fun s a e hp hr ha he => ?_⟩
  · obtain ⟨t, ht, hp, ho, hw, hpl⟩ := exec_accepted_outcome hrun
    rw [← hw] at ha
    rw [← hpl] at hr
    have hengine := fun rest => run_succ (k := rest.length) (step_engine_accepted hrun ht rest)
    refine ⟨⟨t, ?_⟩, t, ?_⟩
    · obtain ⟨u, hu, hreply⟩ := read_afterObservation
        (s := { t with inputs := [.regRead 0x04 4, .memRead a true] }) rfl hp ho ha hr
      exact ⟨u, ht, (hengine _).trans hu, hreply⟩
    · have hread := step_memRead_any (s := { t with inputs := [.memRead a true] }) rfl hr
        (.inl ((unsettled_idle hp _).2 (.inl ha)))
      exact ⟨_, ht, (hengine _).trans (run_one hread), rfl⟩
  · have hs : unsettled s a.toNat = false := by
      rw [← Bool.not_eq_true, unsettled_idle hp]; exact not_or.2 ⟨h1, h2⟩
    exact step_memRead_value hi hr hs hc
  · exact step_memRead_any hi hr (.inl ((unsettled_idle hp _).2 h))
  · obtain ⟨t, ht, hlost⟩ : ∃ t, step { s with inputs := [e, .regRead 0x04 4, .memRead a true] } = .next t ∧
        OutcomeLost [.regRead 0x04 4, .memRead a true]
          { s with inputs := [e, .regRead 0x04 4, .memRead a true] } t := by
      rcases he with ⟨hrst, w, rfl, hk⟩ | rfl
      · exact step_rejected_losesOutcome hp ⟨hrst, rfl⟩ hk
      · exact step_reset_losesOutcome hp rfl
    rw [run_succ ht]
    exact hlost.read_any hr ha

/-- Settles O43: off a coherent path the read replies a draw, and the write is a draw at its byte. -/
theorem incoherentAccessIsAnyValue : Obligations.IncoherentAccessIsAnyValue := by
  intro s a v rest hp hr
  have hc : pathCoherent s.platform false = false := by simp [pathCoherent, hp]
  refine ⟨fun hi => step_memRead_any hi hr (.inr hc), fun hi => ?_⟩
  exact ⟨_, step_memWrite_incoherent hi hr hc, rfl, read_anyCells _ _ _ _ (by simp),
    fun b hb => read_anyCells_outside _ _ _ _ (by simpa using hb), taintedBy_iff _ s⟩

end Sys2Proof.Machine

/-! # Command words as bytes, and every step

The byte order of a command word (20_memory.md R67); no input faults where the running command is legal
(93_implementation_defined.md, Treatments); the platform over a step (20_memory.md R61). -/

namespace Sys2Proof.Machine

/-! ## Command words as bytes -/

/-- A word is put together again from its bytes (20_memory.md R67). -/
theorem wordOfBytes_bytesOfWord (w : Word) :
    wordOfBytes (w.extractLsb' 0 8) (w.extractLsb' 8 8) (w.extractLsb' 16 8) (w.extractLsb' 24 8) = w := by
  rw [wordOfBytes, BitVec.extractLsb'_append_extractLsb'_eq_extractLsb' (by rfl),
    BitVec.extractLsb'_append_extractLsb'_eq_extractLsb' (by rfl),
    BitVec.extractLsb'_append_extractLsb'_eq_extractLsb' (by rfl)]
  exact BitVec.extractLsb'_eq_self

/-- The bytes of a word decode as the word, and the bytes that follow are left. -/
theorem decodeBytes_bytesOfWord (w : Word) (rest : List Byte) :
    decodeBytes (bytesOfWord w ++ rest) = (decode w).map fun i => (i, rest) := by
  simp only [bytesOfWord, List.cons_append, List.nil_append, decodeBytes, wordOfBytes_bytesOfWord]
  cases decode w <;> rfl

/-! ## No input faults -/

theorem writeReg_ne_fault (r : Reg) (v : Word) (s : State) (f : Fault) : writeReg r v s ≠ .fault f := by
  cases r with
  | cmd =>
    cases hp : s.phase with
    | idle => rw [writeReg, writeCmd_idle v s hp]; exact accept_ne_fault v s f
    | busy => simp [writeReg, writeCmd_busy v s hp]
  | _ => simp [writeReg]

theorem hostRegWrite_ne_fault (o : Byte) (n : Nat) (v : Word) (s : State) (f : Fault) :
    hostRegWrite o n v s ≠ .fault f := by
  unfold hostRegWrite
  split
  · simp
  · split
    · simp
    · split
      · simp
      · exact writeReg_ne_fault _ v s f

theorem hostRegRead_ne_fault (o : Byte) (n : Nat) (s : State) (f : Fault) : hostRegRead o n s ≠ .fault f := by
  unfold hostRegRead
  split <;> simp

theorem hostMemRead_ne_fault (a : Word) (c : Bool) (s : State) (f : Fault) : hostMemRead a c s ≠ .fault f := by
  simp only [hostMemRead]
  split
  · simp
  · split <;> simp

theorem hostMemWrite_ne_fault (a : Word) (v : Byte) (c : Bool) (s : State) (f : Fault) :
    hostMemWrite a v c s ≠ .fault f := by
  simp only [hostMemWrite]
  split
  · simp
  · split <;> simp

/-- The engine's turn completes a legal command, whose opcode is assigned and whose footprints are in range. -/
theorem engineTurn_ne_fault {s : State} (h : runningLegal s) (f : Fault) : engineTurn s ≠ .fault f := by
  cases hp : s.phase with
  | idle => simp [engineTurn, hp]
  | busy =>
    obtain ⟨i, hi⟩ := accepted_of_legal h hp
    rw [engineTurn_accepted ⟨hp, hi⟩, exec_accepted ⟨hp, hi⟩]
    simp

/-- A reset abandons a legal command, whose destination is in range. -/
theorem assertReset_ne_fault {s : State} (h : runningLegal s) (f : Fault) : assertReset s ≠ .fault f := by
  cases hp : s.phase with
  | idle => simp [assertReset, runningCommand_idle hp]
  | busy =>
    obtain ⟨i, hi⟩ := accepted_of_legal h hp
    have ⟨hn, _, hk, _⟩ := hi
    obtain ⟨-, -, hin⟩ := check_none hn hk
    simp [assertReset, runningCommand_accepted ⟨hp, hi⟩, write_inRange hin]

/-- No input faults where the running command is legal. -/
theorem applyInput_ne_fault {s : State} (h : runningLegal s) (e : Input) (f : Fault) :
    applyInput e s ≠ .fault f := by
  cases e with
  | engine => exact engineTurn_ne_fault h f
  | regRead o n => exact hostRegRead_ne_fault o n s f
  | regWrite o n v => exact hostRegWrite_ne_fault o n v s f
  | memRead a c => exact hostMemRead_ne_fault a c s f
  | memWrite a v c => exact hostMemWrite_ne_fault a v c s f
  | rstAssert => exact assertReset_ne_fault h f
  | rstRelease => simp [applyInput]

/-! ## The obligations about words and steps -/

/-- Settles O3, by `decodeBytes_bytesOfWord`. -/
theorem bytesDecodeAsTheirWord : Obligations.BytesDecodeAsTheirWord := by
  refine ⟨fun w rest i h => ?_, fun w rest e h => ?_, fun i => ?_⟩
  · rw [decodeBytes_bytesOfWord, h]; rfl
  · rw [decodeBytes_bytesOfWord, h]; rfl
  · have hw : BitVec.ofNat 32 ((encode i).toNat % 2 ^ 32) = encode i := by
      rw [Nat.mod_eq_of_lt (encode i).isLt, BitVec.ofNat_toNat, BitVec.setWidth_eq]
    have hb := decodeBytes_bytesOfWord (encode i) []
    rw [List.append_nil, decode_encode] at hb
    simp only [decodeTableWord, hw, hb]
    rfl

/-- Settles O52: with no input the step is the engine's turn, else `applyInput_ne_fault`. -/
theorem noStepFaults : Obligations.NoStepFaults := by
  intro s f h
  rcases hl : s.inputs with - | ⟨e, rest⟩
  · rw [step_engine (.inl hl)]; exact engineTurn_ne_fault (by exact h) f
  · rw [step_input hl]; exact applyInput_ne_fault (s := { s with inputs := rest }) h e f

/-- Settles O53, by everything a step can do. -/
theorem platformIsConstant : Obligations.PlatformIsConstant := by
  intro s t h
  cases step_next h with
  | engineBusy => simp
  | configWrite => simp
  | _ => rfl

end Sys2Proof.Machine

/-! # Command words, pseudo-instructions and the tight layout

The four words that are commands, against all others (30_encoding.md R91, R92); the loop condition of WAIT (R97); the
size of the tight layout (R98, 42_row_resampler.md R151). -/

namespace Sys2Proof.Machine

/-! ## Command words -/

/-- Decode and encode agree in both directions (30_encoding.md R92). -/
theorem decode_eq_ok_iff (w : Word) (i : Instr) : decode w = .ok i ↔ w = encode i :=
  ⟨eq_encode_of_decode, by rintro rfl; exact decode_encode i⟩

/-- The opcodes from 0x4 on are reserved (30_encoding.md R91). -/
theorem commandOf_reserved {op : Nibble} (h : 4 ≤ op.toNat) : commandOf op = none := by
  have hne (c : Nibble) (hc : c.toNat < 4) : op ≠ c := by rintro rfl; omega
  rw [commandOf, if_neg (hne 0x0 (by decide)), if_neg (hne 0x1 (by decide)), if_neg (hne 0x2 (by decide)),
    if_neg (hne 0x3 (by decide))]

/-- A word that is no command's word is illegal (30_encoding.md R92). -/
theorem decode_error_of_ne_encode {w : Word} (h : ∀ i, w ≠ encode i) : ∃ e, decode w = .error e := by
  cases hd : decode w with
  | error e => exact ⟨e, rfl⟩
  | ok i => exact absurd (eq_encode_of_decode hd) (h i)

/-- A word with a reserved opcode is illegal, whatever its other bits are (30_encoding.md R91). -/
theorem decode_error_of_reserved {w : Word} (h : 4 ≤ (opField w).toNat) : ∃ e, decode w = .error e := by
  refine decode_error_of_ne_encode fun i hi => ?_
  have hc := commandOf_encode i
  rw [← hi, commandOf_reserved h] at hc
  exact absurd hc (by simp)

/-- In Idle a step on a CMD write of any word is its acceptance (43_control.md R170). -/
theorem step_cmdWrite_idle {s : State} {w : Word} {rest : List Input} (hc : cmdWriteNext w rest s)
    (hp : s.phase = .idle) : step s = accept w { s with inputs := rest } := by
  obtain ⟨hr, hi⟩ := hc
  exact (step_writeReg (r := .cmd) hr hi).trans (writeCmd_idle w _ hp)

/-! ## The condition of WAIT -/

/-- A field of the name bound last is a field of its word. -/
theorem holds_field_bound (name : String) (hi lo value : Nat) (w : Word) (names : List ((String × Nat) × Word)) :
    (Cond.field name hi lo value).holds (((name, 0), w) :: names) = true ↔
      w.toNat / 2 ^ lo % 2 ^ (hi + 1 - lo) = value := by
  simp [Cond.holds, nameValue]

/-- WAIT goes on while BUSY is set, or neither DONE nor ERR is (30_encoding.md R97). -/
theorem waiting_holds_iff (name : String) (w : Word) (names : List ((String × Nat) × Word)) :
    (waiting name).holds (((name, 0), w) :: names) = true ↔
      w.getLsbD 0 = true ∨ (w.getLsbD 1 = false ∧ w.getLsbD 2 = false) := by
  rw [waiting, Cond.holds, Bool.or_eq_true, holds_field_bound, holds_field_bound]
  simp only [BitVec.getLsbD, Nat.testBit_eq_decide_div_mod_eq, decide_eq_true_eq, decide_eq_false_iff_not]
  omega

/-! ## The tight layout -/

theorem two_mul_ceil2 (a : Nat) : 2 * ceil2 a = a + a % 2 := by
  unfold ceil2; omega

/-- Twice the tight size is three times the luma size, and what the rounding of odd dimensions adds. -/
theorem two_mul_tightSize (W H : Nat) :
    2 * tightSize W H = 3 * (W * H) + (W * (H % 2) + W % 2 * (H + H % 2)) := by
  calc 2 * tightSize W H = 2 * (W * H) + 2 * ceil2 W * (2 * ceil2 H) := by unfold tightSize; ring
    _ = 3 * (W * H) + (W * (H % 2) + W % 2 * (H + H % 2)) := by rw [two_mul_ceil2, two_mul_ceil2]; ring

/-- The rounding adds nothing exactly where both dimensions are even. -/
theorem roundingExcess_eq_zero_iff {W H : Nat} (hW : 0 < W) (hH : 0 < H) :
    W * (H % 2) + W % 2 * (H + H % 2) = 0 ↔ W % 2 = 0 ∧ H % 2 = 0 := by
  simp only [Nat.add_eq_zero_iff, Nat.mul_eq_zero]
  omega

/-! ## The obligations about the encoding -/

/-- Settles O1: the decoder recognises the words of `encode`, and acceptance of any other word raises BAD_CMD. -/
theorem exactlyFourWordsAreCommands : Obligations.ExactlyFourWordsAreCommands := by
  refine ⟨decode_eq_ok_iff, ?_⟩
  intro w s rest h0 h1 h2 h3 hc hp
  obtain ⟨e, he⟩ : ∃ e, decode w = .error e := decode_error_of_ne_encode fun i => by
    cases i with
    | nop => exact h0
    | cscFwd => exact h1
    | cscInv => exact h2
    | repack => exact h3
  rw [step_cmdWrite_idle hc hp, accept_illegal he]
  exact ⟨_, rfl, rfl, rfl, rfl, rfl, rfl, hp⟩

/-- Settles O2: the four words are those of `encode`, and a word with a reserved opcode is illegal. -/
theorem opcodeTableDecodes : Obligations.OpcodeTableDecodes := by
  refine ⟨decode_encode .nop, decode_encode .cscFwd, decode_encode .cscInv, decode_encode .repack,
    fun op => commandOf_reserved, fun w l h => ?_⟩
  obtain ⟨e, he⟩ := decode_error_of_reserved h
  exact check_of_illegal he l

/-- Settles O59: the expansions evaluate to the listed transactions, and WAIT is `waiting_holds_iff`. -/
theorem pseudoInstructionsExpand : Obligations.PseudoInstructionsExpand :=
  ⟨by decide, by decide, by decide, by decide, fun w name names => waiting_holds_iff name w names⟩

/-- Settles O60: the tight size exceeds `W * H * 3 / 2` by the rounding of odd dimensions. -/
theorem tightLayoutSize : Obligations.TightLayoutSize := by
  intro W H hW hH
  refine ⟨?_, by rw [tightSize, Nat.mul_assoc 2]; rfl⟩
  have h2 := two_mul_tightSize W H
  rw [← roundingExcess_eq_zero_iff hW hH]
  omega

end Sys2Proof.Machine

/-! # The forward matrix on exact integers

A clamped result as a number (00_scope.md R7); the ranges of the forward sums (40_csc_forward.md R115), which no clamp
can change; grey pixels (R118); and the two pixels whose luma a round trip changes (41_csc_inverse.md R138). -/

namespace Sys2Proof.Machine

/-! ## Clamped results -/

/-- A sample is a number from 0 to 255 (00_scope.md R6). -/
theorem sample_range (b : Byte) : 0 ≤ sample b ∧ sample b ≤ 255 := by
  have hb : b.toNat < 256 := b.isLt
  simp only [sample]
  omega

/-- The shift is floor division (00_scope.md R7). -/
theorem asr8_eq_fdiv (x : Int) : asr8 x = x.fdiv 256 :=
  (Int.fdiv_eq_ediv_of_nonneg x (by decide)).symm

/-- The clamp is saturation (00_scope.md R7). -/
theorem clamp8_eq_saturate (x : Int) : clamp8 x = max 0 (min 255 x) := by
  unfold clamp8
  split
  · omega
  · split <;> omega

/-- A clamped result fits a byte (00_scope.md R7). -/
theorem toNat_byteOfInt_clamp8 (x : Int) : ((byteOfInt (clamp8 x)).toNat : Int) = max 0 (min 255 x) := by
  rw [byteOfInt, BitVec.toNat_ofInt, clamp8_eq_saturate]
  omega

/-- A sum shifted by floor, offset and saturated. -/
theorem toNat_clamp8_asr8_add (x c : Int) :
    ((byteOfInt (clamp8 (asr8 x + c))).toNat : Int) = max 0 (min 255 (x.fdiv 256 + c)) := by
  rw [toNat_byteOfInt_clamp8, asr8_eq_fdiv]

/-- Where the ends of a sum's range give bytes `m` and `n`, the clamp changes no value of the sum, and the results lie
between `m` and `n`: the floor shift is monotone (40_csc_forward.md R115). -/
theorem clamp8_asr8_add_inactive {x c lo hi : Int} {m n : Nat} (hx : lo ≤ x ∧ x ≤ hi) (hm : asr8 lo + c = m)
    (hn : asr8 hi + c = n) (hbyte : n ≤ 255) :
    m ≤ (byteOfInt (clamp8 (asr8 x + c))).toNat ∧ (byteOfInt (clamp8 (asr8 x + c))).toNat ≤ n ∧
      ((byteOfInt (clamp8 (asr8 x + c))).toNat : Int) = x.fdiv 256 + c := by
  have hlo : asr8 lo ≤ asr8 x := Int.ediv_le_ediv (by decide) hx.1
  have hhi : asr8 x ≤ asr8 hi := Int.ediv_le_ediv (by decide) hx.2
  have hsat := toNat_byteOfInt_clamp8 (asr8 x + c)
  rw [← asr8_eq_fdiv]
  omega

/-! ## The forward functions -/

section Forward
variable (r g b : Byte)

theorem lumaSum_range : 128 ≤ lumaSum r g b ∧ lumaSum r g b ≤ 56228 := by
  have hr := sample_range r
  have hg := sample_range g
  have hb := sample_range b
  simp only [lumaSum]
  omega

theorem cbSum_range : -28432 ≤ cbSum r g b ∧ cbSum r g b ≤ 28688 := by
  have hr := sample_range r
  have hg := sample_range g
  have hb := sample_range b
  simp only [cbSum]
  omega

theorem crSum_range : -28432 ≤ crSum r g b ∧ crSum r g b ≤ 28688 := by
  have hr := sample_range r
  have hg := sample_range g
  have hb := sample_range b
  simp only [crSum]
  omega

theorem lumaF_unclamped : 16 ≤ (lumaF r g b).toNat ∧ (lumaF r g b).toNat ≤ 235 ∧
    ((lumaF r g b).toNat : Int) = (lumaSum r g b).fdiv 256 + 16 :=
  clamp8_asr8_add_inactive (lumaSum_range r g b) (by decide) (by decide) (by decide)

theorem cbF_unclamped : 16 ≤ (cbF r g b).toNat ∧ (cbF r g b).toNat ≤ 240 ∧
    ((cbF r g b).toNat : Int) = (cbSum r g b).fdiv 256 + 128 :=
  clamp8_asr8_add_inactive (cbSum_range r g b) (by decide) (by decide) (by decide)

theorem crF_unclamped : 16 ≤ (crF r g b).toNat ∧ (crF r g b).toNat ≤ 240 ∧
    ((crF r g b).toNat : Int) = (crSum r g b).fdiv 256 + 128 :=
  clamp8_asr8_add_inactive (crSum_range r g b) (by decide) (by decide) (by decide)

/-- The U row of the matrix sums to 0 (40_csc_forward.md R118). -/
theorem cbSum_grey : cbSum g g g = 128 := by simp only [cbSum]; omega

/-- The V row of the matrix sums to 0 (40_csc_forward.md R118). -/
theorem crSum_grey : crSum g g g = 128 := by simp only [crSum]; omega

theorem cbF_grey : cbF g g g = 128 := by rw [cbF, cbSum_grey]; decide

theorem crF_grey : crF g g g = 128 := by rw [crF, crSum_grey]; decide

end Forward

/-! ## The obligations about the forward functions -/

/-- Settles O58: grey by the zero rows of the matrix; the other pixels are evaluated. -/
theorem greyPixelsAndTheRoundTrip : Obligations.GreyPixelsAndTheRoundTrip :=
  ⟨fun g => ⟨cbF_grey g, crF_grey g⟩, by decide⟩

/-- Settles O55: the formulas by `toNat_clamp8_asr8_add`, and the ranges, in which the clamp does nothing. -/
theorem forwardFormulasAndRanges : Obligations.ForwardFormulasAndRanges := by
  intro r g b R G B sY sU sV
  obtain ⟨hyLo, hyHi⟩ := lumaSum_range r g b
  obtain ⟨huLo, huHi⟩ := cbSum_range r g b
  obtain ⟨hvLo, hvHi⟩ := crSum_range r g b
  obtain ⟨hYLo, hYHi, hY⟩ := lumaF_unclamped r g b
  obtain ⟨hULo, hUHi, hU⟩ := cbF_unclamped r g b
  obtain ⟨hVLo, hVHi, hV⟩ := crF_unclamped r g b
  exact ⟨toNat_clamp8_asr8_add sY 16, toNat_clamp8_asr8_add sU 128, toNat_clamp8_asr8_add sV 128,
    hyLo, hyHi, huLo, huHi, hvLo, hvHi, hYLo, hYHi, hULo, hUHi, hVLo, hVHi, hY, hU, hV⟩

end Sys2Proof.Machine

/-! # CSC_FWD converts the picture

A clean completion leaves every cell of `Perform` in memory (43_control.md R172), so CSC_FWD leaves the sample of each
plane (40_csc_forward.md R110, R113); a refused access, of an A byte too, ends a command in a bus error (R114,
60_exceptions.md R184). -/

namespace Sys2Proof.Machine

/-! ## How an accepted command ends -/

/-- A command that runs cleanly completes with DONE, and memory holds every byte its `Perform` wrote
(43_control.md R172, third branch). -/
theorem exec_clean_cells {i : Instr} {s : State} (h : runsCleanly i s) :
    ∃ t, exec i s = .next t ∧ t.status.done = true ∧ t.status.err = s.status.err ∧ t.phase = .idle ∧
      ∀ c ∈ performCells i s.latch s.mem.read, t.mem.read c.1 = c.2 := by
  refine ⟨_, exec_clean h, rfl, rfl, rfl, fun c hc => ?_⟩
  obtain ⟨⟨-, hn, -, hk, -⟩, -, ho, -⟩ := h
  exact read_writeAll_agreed _ _ _ _ ⟨c, hc, rfl⟩ fun d hd hdc =>
    congrArg Prod.snd (performCells_unique hn hk ho hd hc hdc)

/-- Not every access is accepted where one of a read or of a write is not (20_memory.md R61). -/
theorem busAccepts_eq_false_iff (p : Platform) (i : Instr) (l : Latched) : busAccepts p i l = false ↔
    (∃ a ∈ footprintAddresses (readFootprints i l), busOK p a .read = false) ∨
      ∃ a ∈ footprintAddresses (writeFootprints i l), busOK p a .write = false := by
  simp only [busAccepts, Bool.and_eq_false_iff, List.all_eq_false, Bool.not_eq_true]

/-- An accepted command with an access that is not accepted ends in a bus error (43_control.md R172, first branch). -/
theorem exec_busError {i : Instr} {s : State} (h : runningAs i s) (hb : busAccepts s.platform i s.latch = false) :
    exec i s = .next (raiseError .bus
      { drawBytes ((footprintAddresses (writeFootprints i s.latch)).filter
          fun a => busOK s.platform a .write) s with phase := .idle }) := by
  rw [exec_accepted h]
  rcases completion_cases i (performCells i) s with ⟨_, he⟩ | ⟨hok, _⟩ | ⟨hok, _⟩
  · rw [he]
  · simp [hb] at hok
  · simp [hb] at hok

/-! ## The samples CSC_FWD leaves -/

/-- The address of a destination sample (20_memory.md R68). -/
theorem dstAt_eq (l : Latched) (p : Plane) (row col : Nat) :
    l.dstAt p row col = (l.dstBase p).toNat + row * (l.dstStride p).toNat + col := by
  rw [Latched.dstAt, planeAddress, Nat.one_mul]

/-- A clean CSC_FWD leaves its sample at every place of each destination plane (40_csc_forward.md R110). -/
theorem exec_cscFwd_samples {s : State} (h : runsCleanly .cscFwd s) :
    ∃ t, exec .cscFwd s = .next t ∧ t.status.done = true ∧ t.status.err = s.status.err ∧ t.phase = .idle ∧
      ∀ p, ∀ row < s.latch.planeRows p, ∀ col < s.latch.planeCols p,
        t.mem.read ((s.latch.dstBase p).toNat + row * (s.latch.dstStride p).toNat + col) =
          forwardSample s.latch s.mem.read p row col := by
  obtain ⟨t, ht, hdone, herr, hphase, hcells⟩ := exec_clean_cells h
  refine ⟨t, ht, hdone, herr, hphase, fun p row hr col hc => ?_⟩
  rw [← dstAt_eq]
  exact hcells (_, _) ((mem_forwardCells ..).2 ⟨p, row, hr, col, hc, rfl⟩)

/-! ## The obligations about CSC_FWD -/

/-- Settles O13: the samples of the three planes by `exec_cscFwd_samples`; the top-left pixel of a block exists. -/
theorem forwardConvertsThePicture : Obligations.ForwardConvertsThePicture := by
  intro s h l p px
  obtain ⟨t, ht, hdone, herr, hphase, hsample⟩ := exec_cscFwd_samples h
  exact ⟨t, ht, hdone, herr, hphase, hsample .y, fun i hi j hj =>
    ⟨topLeft_row l hi, topLeft_col l hj, hsample .u i hi j hj, hsample .v i hi j hj⟩⟩

/-- Settles O19: `Perform` reads R, G and B alone, and the A byte is among the bytes that must be accepted. -/
theorem alphaIsReadAndIgnored : Obligations.AlphaIsReadAndIgnored := by
  refine ⟨fun s t t' m hp hread h h' a ha hw => ?_, fun s row col hrun hr hc hbus => ?_⟩
  · rw [exec_busy .cscFwd s hp] at h
    rw [exec_busy .cscFwd { s with mem := m } hp] at h'
    obtain ⟨-, -, rfl⟩ := complete_cases h
    obtain ⟨-, -, rfl⟩ := complete_cases h'
    exact completion_withMem_read (i := .cscFwd) (s := s) (forwardCells_congr hread) ha hw
  · have halpha : s.latch.rgbaAt row col + 3 ∈ footprintAddresses (readFootprints .cscFwd s.latch) :=
      rgba_mem s.latch hr hc (by decide)
    exact ⟨_, exec_busError hrun ((busAccepts_eq_false_iff ..).2 (.inl ⟨_, halpha, hbus⟩)), rfl, rfl⟩

end Sys2Proof.Machine

/-! # CSC_INV converts the picture

A sum below zero saturates to 0 whichever way its shift rounds (41_csc_inverse.md R135), and a clean CSC_INV leaves the
four channels of every pixel in memory (R130 to R133). -/

namespace Sys2Proof.Machine

/-! ## The inverse functions -/

/-- A sum shifted by floor and saturated. -/
theorem toNat_clamp8_asr8 (x : Int) :
    ((byteOfInt (clamp8 (asr8 x))).toNat : Int) = max 0 (min 255 (x.fdiv 256)) := by
  rw [toNat_byteOfInt_clamp8, asr8_eq_fdiv]

/-- Saturation hides how a shift rounds: from 0 on both readings agree, and below 0 both results saturate to 0
(41_csc_inverse.md R135). -/
theorem saturate_fdiv_eq_tdiv (x : Int) : max 0 (min 255 (x.fdiv 256)) = max 0 (min 255 (x.tdiv 256)) := by
  rcases le_or_gt 0 x with hx | hx
  · rw [Int.fdiv_eq_tdiv_of_nonneg hx (by decide)]
  · have hfloor : x.fdiv 256 < 0 := Int.fdiv_neg_of_neg_of_pos hx (by decide)
    have htrunc : x.tdiv 256 ≤ 0 := Int.tdiv_le_tdiv (b := 0) (by decide) hx.le
    omega

/-- A sum shifted toward zero and saturated (41_csc_inverse.md R135). -/
theorem toNat_clamp8_asr8_tdiv (x : Int) :
    ((byteOfInt (clamp8 (asr8 x))).toNat : Int) = max 0 (min 255 (x.tdiv 256)) :=
  (toNat_clamp8_asr8 x).trans (saturate_fdiv_eq_tdiv x)

section Inverse
variable (y u v : Byte)

theorem redSum_range : -56992 ≤ redSum y u v ∧ redSum y u v ≤ 123293 := by
  have hy := sample_range y
  have hv := sample_range v
  simp only [redSum]
  omega

theorem greenSum_range : -43756 ≤ greenSum y u v ∧ greenSum y u v ≤ 110774 := by
  have hy := sample_range y
  have hu := sample_range u
  have hv := sample_range v
  simp only [greenSum]
  omega

theorem blueSum_range : -70688 ≤ blueSum y u v ∧ blueSum y u v ≤ 136882 := by
  have hy := sample_range y
  have hu := sample_range u
  simp only [blueSum]
  omega

end Inverse

/-! ## The pixels CSC_INV leaves -/

/-- A clean CSC_INV leaves its byte at every channel of every pixel (41_csc_inverse.md R130). -/
theorem exec_cscInv_channels {s : State} (h : runsCleanly .cscInv s) :
    ∃ t, exec .cscInv s = .next t ∧ t.status.done = true ∧ t.status.err = s.status.err ∧ t.phase = .idle ∧
      ∀ row < s.latch.H, ∀ col < s.latch.W, ∀ ch < 4,
        t.mem.read (s.latch.rgbaAt row col + ch) = inverseChannel s.latch s.mem.read row col ch := by
  obtain ⟨t, ht, hdone, herr, hphase, hcells⟩ := exec_clean_cells h
  refine ⟨t, ht, hdone, herr, hphase, fun row hr col hc ch hch => ?_⟩
  have hpixel := (mem_inversePixel s.latch s.mem.read row col _).2 ⟨ch, hch, rfl⟩
  exact hcells _ ((mem_inverseCells ..).2 ⟨row, hr, col, hc, hpixel⟩)

/-- The samples of a pixel, at their addresses written out (20_memory.md R68; 41_csc_inverse.md R132). -/
theorem ofSamples_eq (f : Byte → Byte → Byte → Byte) (l : Latched) (rd : Nat → Byte) (row col : Nat) :
    ofSamples f l rd row col = f (rd (l.planes.srcYBase.toNat + row * l.planes.srcYStride.toNat + col))
      (rd (l.planes.srcUBase.toNat + row / 2 * l.planes.srcUVStride.toNat + col / 2))
      (rd (l.planes.srcVBase.toNat + row / 2 * l.planes.srcUVStride.toNat + col / 2)) := by
  simp only [ofSamples, Latched.srcYAt, Latched.srcUAt, Latched.srcVAt, planeAddress, Nat.one_mul]

/-! ## The obligations about CSC_INV -/

/-- Settles O14: the four channels of a pixel by `exec_cscInv_channels`; its chroma sample exists. -/
theorem inverseConvertsThePicture : Obligations.InverseConvertsThePicture := by
  intro s h l p y u v q
  obtain ⟨t, ht, hdone, herr, hphase, hchannel⟩ := exec_cscInv_channels h
  refine ⟨t, ht, hdone, herr, hphase, fun row hr col hc => ?_⟩
  have hpixel := hchannel row hr col hc
  exact ⟨chroma_row l hr, chroma_col l hc,
    (hpixel 0 (by decide)).trans (ofSamples_eq redF l s.mem.read row col),
    (hpixel 1 (by decide)).trans (ofSamples_eq greenF l s.mem.read row col),
    (hpixel 2 (by decide)).trans (ofSamples_eq blueF l s.mem.read row col),
    hpixel 3 (by decide)⟩

/-- Settles O56: both readings of the shift by `toNat_clamp8_asr8` and `saturate_fdiv_eq_tdiv`, and the ranges of the
sums. -/
theorem inverseFormulasAndRanges : Obligations.InverseFormulasAndRanges := by
  intro y u v c d e sR sG sB
  obtain ⟨hrLo, hrHi⟩ := redSum_range y u v
  obtain ⟨hgLo, hgHi⟩ := greenSum_range y u v
  obtain ⟨hbLo, hbHi⟩ := blueSum_range y u v
  exact ⟨toNat_clamp8_asr8 sR, toNat_clamp8_asr8 sG, toNat_clamp8_asr8 sB, hrLo, hrHi, hgLo, hgHi, hbLo, hbHi,
    toNat_clamp8_asr8_tdiv sR, toNat_clamp8_asr8_tdiv sG, toNat_clamp8_asr8_tdiv sB⟩

end Sys2Proof.Machine

/-! # REPACK copies every sample

REPACK writes a source sample to every place of the destination, so a clean completion leaves each destination byte
equal to the source byte at the same plane position (42_row_resampler.md R153). -/

namespace Sys2Proof.Machine

/-! ## The source planes -/

/-- The base of a source plane (10_state.md R37). -/
def Latched.srcBase (l : Latched) : Plane → Word
  | .y => l.planes.srcYBase
  | .u => l.planes.srcUBase
  | .v => l.planes.srcVBase

/-- The stride of a source plane (10_state.md R37). -/
def Latched.srcStride (l : Latched) : Plane → Word
  | .y => l.planes.srcYStride
  | .u => l.planes.srcUVStride
  | .v => l.planes.srcUVStride

/-- The sample REPACK copies is the byte at the same position of the source plane (20_memory.md R68). -/
theorem repackSample_eq (l : Latched) (rd : Nat → Byte) (p : Plane) (row col : Nat) :
    repackSample l rd p row col = rd ((l.srcBase p).toNat + row * (l.srcStride p).toNat + col) := by
  have haddr : repackSample l rd p row col = rd (planeAddress (l.srcBase p) (l.srcStride p) 1 row col) := by
    cases p <;> rfl
  rw [haddr, planeAddress, Nat.one_mul]

/-! ## The samples REPACK leaves -/

/-- A clean REPACK leaves, in each destination plane, the source plane's samples (42_row_resampler.md R153). -/
theorem exec_repack_samples {s : State} (h : runsCleanly .repack s) :
    ∃ t, exec .repack s = .next t ∧ t.status.done = true ∧ t.status.err = s.status.err ∧ t.phase = .idle ∧
      ∀ p, ∀ row < s.latch.planeRows p, ∀ col < s.latch.planeCols p,
        t.mem.read ((s.latch.dstBase p).toNat + row * (s.latch.dstStride p).toNat + col) =
          s.mem.read ((s.latch.srcBase p).toNat + row * (s.latch.srcStride p).toNat + col) := by
  obtain ⟨t, ht, hdone, herr, hphase, hcells⟩ := exec_clean_cells h
  refine ⟨t, ht, hdone, herr, hphase, fun p row hr col hc => ?_⟩
  have hwritten := (mem_repackCells s.latch s.mem.read _).2 ⟨p, row, hr, col, hc, rfl⟩
  rw [← dstAt_eq]
  exact (hcells _ hwritten).trans (repackSample_eq ..)

/-! ## The obligation about REPACK -/

/-- Settles O15: the three planes of `exec_repack_samples`, one by one. -/
theorem repackCopiesEverySample : Obligations.RepackCopiesEverySample := by
  intro s h l p
  obtain ⟨t, ht, hdone, herr, hphase, hsample⟩ := exec_repack_samples h
  exact ⟨t, ht, hdone, herr, hphase, hsample .y, fun i hi j hj =>
    ⟨hsample .u i hi j hj, hsample .v i hi j hj⟩⟩

end Sys2Proof.Machine

/-! # Acceptance, completion and the end of a command

What acceptance of a word does (43_control.md R170, R171, R175), that only an accepted command ever runs (R172), and
that a running command ends (R173, R177). The laws come first; the obligations follow, the invariant foremost. -/

namespace Sys2Proof.Machine

/-! ## The running command is an accepted one -/

/-- The state acceptance leaves where it starts the engine is that of the accepted running command
(43_control.md R170). -/
theorem runningAs_startEngine {w : Word} {i : Instr} {s : State} (hn : i ≠ .nop) (hd : decode w = .ok i)
    (hk : checkCommand i (latchOperands w s.regs) = .none)
    (hf : footprintRefusal s.platform (footprints i (latchOperands w s.regs)) = none) :
    runningAs i (startEngine i (beginAccept w s)) :=
  ⟨rfl, hn, commandOf_decode hd, hk, hf, rfl⟩

theorem runningLegal_of_idle {s : State} (h : s.phase = .idle) : runningLegal s := by
  intro hb
  rw [h] at hb
  exact absurd hb (by decide)

/-- The three disjuncts of `runningLegal` are the three commands other than NOP. -/
theorem runningLegal_of_runningAs {i : Instr} {s : State} (h : runningAs i s) : runningLegal s := by
  obtain ⟨-, ha⟩ := h
  have ⟨hn, _⟩ := ha
  intro _
  cases i with
  | nop => exact absurd rfl hn
  | cscFwd => exact .inl ha
  | cscInv => exact .inr (.inl ha)
  | repack => exact .inr (.inr ha)

/-- `runningLegal` reads the phase, `L`, the platform and, in Busy, the awaited destination. -/
theorem runningLegal_of_kept {s t : State} (h : runningLegal s) (hp : t.phase = s.phase) (hl : t.latch = s.latch)
    (hpl : t.platform = s.platform) (ha : s.phase = .busy → t.awaited = s.awaited) : runningLegal t := by
  intro hb
  rw [hp] at hb
  simpa only [acceptedAs, hl, hpl, ha hb] using h hb

/-- In Busy a STATUS read observes no outcome (20_memory.md R73). -/
theorem observeStatus_busy {s : State} (h : s.phase = .busy) : observeStatus s = s := by
  simp only [observeStatus, h]

/-! ## Acceptance -/

/-- In Busy a step on a CMD write of any word only sets CMD_LOST (43_control.md R171). -/
theorem step_cmdWrite_busy {s : State} {w : Word} {rest : List Input} (hc : cmdWriteNext w rest s)
    (hp : s.phase = .busy) : step s = .next (setCmdLost { s with inputs := rest }) := by
  obtain ⟨hr, hi⟩ := hc
  exact (step_writeReg (r := .cmd) hr hi).trans (writeCmd_busy w _ hp)

/-- A word that passes its check is a command's. -/
theorem decode_of_check_none {w : Word} {l : Latched} (h : check w l = .none) :
    ∃ i, decode w = .ok i ∧ checkCommand i l = .none := by
  cases hd : decode w with
  | error e => simp [check_of_illegal hd] at h
  | ok i => exact ⟨i, rfl, check_of_decode hd l ▸ h⟩

/-- A word that carries the opcode of NOP is NOP's or illegal (30_encoding.md R92). -/
theorem decode_of_opField_zero {w : Word} (h : opField w = 0) (hw : w ≠ 0x0) : ∃ e, decode w = .error e := by
  cases hd : decode w with
  | error e => exact ⟨e, rfl⟩
  | ok i =>
    have hn : i = .nop := by
      by_contra hne
      exact opField_ne_zero hne hd h
    exact absurd (eq_encode_of_decode hd) (by rw [hn]; exact hw)

/-- A rejection changes what no host read in Idle returns: the outcome it loses stays unsettled (log 13). -/
theorem unsettled_rejected {s : State} (h : s.phase = .idle) (c : ErrCode) (w : Word) (a : Nat) :
    unsettled (raiseError c (beginAccept w s)) a = unsettled s a := by
  rw [← unsettled_loseOutcome h]
  simp [unsettled, h]

/-! ## The end of a command and of a run -/

/-- A completion ends the command, with DONE or with ERR (43_control.md R177). -/
theorem commandEnded_completion (i : Instr) (e : Latched → (Nat → Byte) → List Host.Cell) (s : State) :
    commandEnded (completion i e s) := by
  refine ⟨completion_phase i e s, ?_⟩
  rcases completion_status i e s with h | h
  · exact .inl (by rw [h])
  · exact .inr (by rw [h])

/-- An acceptance ends a rejected command and NOP, and starts every other (43_control.md R177). -/
theorem exec_idle_ends {i : Instr} {s t : State} (hp : s.phase = .idle) (h : exec i s = .next t) :
    (commandEnded t ∧ (i = .nop ∨ t.status.err = true)) ∨
      (t.phase = .busy ∧ i ≠ .nop ∧ t.status.done = false ∧ t.status.err = false) := by
  rw [exec_idle i s hp] at h
  rcases accept_cases h with ⟨e, -, rfl⟩ | ⟨j, -, -, rfl⟩ | ⟨hd, rfl⟩ | ⟨j, hn, hd, -, -, rfl⟩
  · exact .inl ⟨⟨hp, .inr rfl⟩, .inr rfl⟩
  · exact .inl ⟨⟨hp, .inr rfl⟩, .inr rfl⟩
  · rw [decode_encode, Except.ok.injEq] at hd
    exact .inl ⟨⟨hp, .inl rfl⟩, .inl hd⟩
  · rw [decode_encode, Except.ok.injEq] at hd
    exact .inr ⟨rfl, hd ▸ hn, rfl, rfl⟩

/-- Any number of host turns after the end of a run leaves the machine as it is (43_control.md R177). -/
theorem hostTurns_ended {p : List HostOp} {y : System} (k : Nat) (h : programRunEnded p y) :
    ∃ y', runTurns p (List.replicate k .host) y = .next y' ∧ y'.machine = y.machine ∧ programRunEnded p y' := by
  induction k generalizing y with
  | zero => exact ⟨y, rfl, rfl, h⟩
  | succ k ih =>
    obtain ⟨x, hx, hm, hend⟩ := hostTurn_ended h
    obtain ⟨y', hy, hm', hend'⟩ := ih hend
    refine ⟨y', ?_, hm'.trans hm, hend'⟩
    simp only [List.replicate_succ, runTurns, runTurn, hx, hy]

/-- Where no transaction is left in Idle, the next input changes neither memory nor the phase. -/
theorem applyInput_ended {e : Input} {s : State} (hp : s.phase = .idle) (he : e.isTransaction = false) :
    ∃ t, applyInput e s = .next t ∧ t.phase = .idle ∧ t.inputs = s.inputs ∧ t.mem = s.mem := by
  cases e with
  | engine => exact ⟨s, by simp [applyInput, engineTurn, hp], hp, rfl, rfl⟩
  | rstAssert =>
    exact ⟨{ blockReset s with rst := true }, by simp [applyInput, assertReset, runningCommand_idle hp], rfl, rfl,
      rfl⟩
  | rstRelease => exact ⟨{ s with rst := false }, rfl, hp, rfl, rfl⟩
  | _ => simp [Input.isTransaction] at he

/-- A run given as an input list stays ended over a step, with memory unchanged (43_control.md R177). -/
theorem step_runEnded {s : State} (h : runEnded s) : ∃ t, step s = .next t ∧ runEnded t ∧ t.mem = s.mem := by
  obtain ⟨hp, hall⟩ := h
  rcases hl : s.inputs with - | ⟨e, rest⟩
  · exact ⟨s, by simp [step, hl, engineTurn, hp], ⟨hp, hall⟩, rfl⟩
  · rw [hl] at hall
    obtain ⟨he, hrest⟩ := List.forall_mem_cons.1 hall
    obtain ⟨t, ht, htp, hti, htm⟩ := applyInput_ended (s := { s with inputs := rest }) hp he
    exact ⟨t, (step_input hl).trans ht, ⟨htp, hti ▸ hrest⟩, htm⟩

/-! ## Progress -/

/-- The engine's turn runs the latched command (43_control.md R172). -/
theorem engineTurn_running {i : Instr} {s : State} (h : runningCommand s = some i) : engineTurn s = exec i s := by
  simp only [engineTurn, busy_of_runningCommand h, h]

/-- A step consumes one pending input, where one is pending. -/
theorem step_inputs {s t : State} (h : step s = .next t) : t.inputs = s.inputs.tail := by
  have hcmd {w : Word} {rest : List Input} (hc : cmdWriteNext w rest s) : rest = s.inputs.tail := by
    obtain ⟨-, hi⟩ := hc
    rw [hi]; rfl
  cases step_next h with
  | engineIdle => rfl
  | engineBusy => simp
  | cmdDropped w rest hc => exact hcmd hc
  | cmdIllegal w rest hc => exact hcmd hc
  | cmdRejected w rest hc => exact hcmd hc
  | cmdNop w rest hc => exact hcmd hc
  | cmdStarted w rest hc => exact hcmd hc
  | _ => simp [*]

/-- With no input pending, the engine's turn completes the accepted command (43_control.md R172). -/
theorem step_completes {i : Instr} {s : State} (h : runningAs i s) (hl : s.inputs = []) :
    step s = .next (completion i (performCells i) s) := by
  rw [show step s = engineTurn s by simp only [step, hl], engineTurn_accepted h, exec_accepted h]

/-- A run that a refusal ends at its first step. -/
theorem run_one_refused {s : State} {r : Refusal} (h : step s = .refused r) :
    Sys2Proof.core.run 1 s = .refused r := by
  simp only [Host.Core.run, show Sys2Proof.core.step s = step s from rfl, h]

/-! ## The obligations -/

/-- Settles O49: an acceptance starts only a command that passed its check, and while it runs no
step changes what that rests on. -/
theorem runningCommandStaysLegal : Obligations.RunningCommandStaysLegal := by
  intro s t hlegal h
  cases step_next h with
  | engineBusy => exact runningLegal_of_idle (completion_phase ..)
  | regReadStatus rest =>
    refine runningLegal_of_kept hlegal rfl rfl rfl fun hb => ?_
    rw [observeStatus_busy (by exact hb)]
  | configWrite => exact runningLegal_of_kept hlegal (by simp) (by simp) (by simp) (by simp)
  | cmdIllegal _ _ _ hp => exact runningLegal_of_idle hp
  | cmdRejected _ _ _ hp => exact runningLegal_of_idle hp
  | cmdNop _ _ _ hp => exact runningLegal_of_idle hp
  | cmdStarted w rest _ _ i hn hd hk hf =>
    exact runningLegal_of_runningAs (runningAs_startEngine (s := { s with inputs := rest }) hn hd hk hf)
  | resetIdle => exact runningLegal_of_idle rfl
  | resetBusy => exact runningLegal_of_idle rfl
  | _ => exact runningLegal_of_kept hlegal rfl rfl rfl fun _ => rfl

/-- Settles O9, by `accept_started` on the command's own word. -/
theorem commandStartsTheEngine : Obligations.CommandStartsTheEngine := by
  intro i s hn hp hk hf
  have hd := decode_encode i
  exact ⟨_, (exec_idle i s hp).trans (accept_started hd hn hk hf), runningAs_startEngine hn hd hk hf, rfl⟩

/-- Settles O6: a word fails its check, or is NOP's, or starts the engine. -/
theorem acceptanceLatchesAndChecks : Obligations.AcceptanceLatchesAndChecks := by
  intro s w rest hc hp hord
  rw [step_cmdWrite_idle hc hp]
  by_cases hk : check w (latchOperands w s.regs) = .none
  · obtain ⟨i, hd, hki⟩ := decode_of_check_none hk
    by_cases hn : i = .nop
    · subst hn
      have h0 : w.extractLsb' 0 4 = 0#4 := by rw [eq_encode_of_decode hd]; rfl
      refine ⟨_, latchOperands w s.regs, accept_nop hd _, rfl, ?_⟩
      simp [hk, h0, setDone, beginAccept, hp, opField]
    · have h0 : w.extractLsb' 0 4 ≠ 0#4 := opField_ne_zero hn hd
      refine ⟨_, latchOperands w s.regs, accept_started hd hn hki (hord i hd hk), rfl, ?_⟩
      simp [hk, h0, startEngine, beginAccept, opField]
  · refine ⟨_, latchOperands w s.regs, accept_checkFails hk, rfl, ?_⟩
    simp [hk, raiseError, beginAccept, hp, opField]

/-- Settles O8, by `accept_checkFails`; the lost outcome settles no byte. -/
theorem rejectionIsPrecise : Obligations.RejectionIsPrecise := by
  intro s w rest hc hp hk
  rw [step_cmdWrite_idle hc hp, accept_checkFails (by exact hk)]
  refine ⟨_, rfl, rfl, rfl, rfl, hp, rfl, rfl, rfl, rfl, rfl, rfl, rfl, rfl, ?_, fun a => ?_⟩
  · simp [irq_eq]
  · rw [unsettled_rejected (by exact hp), unsettled_inputs]

/-- Settles O17, by everything acceptance can do. -/
theorem acceptanceFrame : Obligations.AcceptanceFrame := by
  intro i s t hp h
  rw [exec_idle i s hp] at h
  rcases accept_cases h with ⟨e, -, rfl⟩ | ⟨j, -, -, rfl⟩ | ⟨-, rfl⟩ | ⟨j, -, -, -, -, rfl⟩ <;> simp

/-- Settles O25: a command ends at its acceptance or its completion, and an ended run stays ended. -/
theorem commandEnds : Obligations.CommandEnds := by
  refine ⟨fun i s t h => ⟨fun hp => ?_, fun hp => exec_idle_ends hp h⟩, fun p y k h => hostTurns_ended k h,
    fun i p y hdone hrun => ⟨fun hend => ?_, ?_⟩, fun s h => step_runEnded h⟩
  · rw [exec_busy i s hp] at h
    obtain ⟨-, -, rfl⟩ := complete_cases h
    exact commandEnded_completion ..
  · exact absurd (hrun.1.symm.trans hend.2) (by decide)
  · refine ⟨{ y with machine := completion i (performCells i) y.machine }, ?_, hdone, completion_phase ..⟩
    simp only [runTurn, stepInput, applyInput, engineTurn_accepted hrun, exec_accepted hrun]

/-- From a Busy state a run comes to Idle, or to a refused access, at the latest one step after the pending inputs. -/
theorem busy_completes {s : State} (hlegal : runningLegal s) (hp : s.phase = .busy) :
    ∃ k ≤ s.inputs.length + 1, (∃ t, Sys2Proof.core.run k s = .next t ∧ t.phase = .idle) ∨
      ∃ r, Sys2Proof.core.run k s = .refused r := by
  induction hl : s.inputs generalizing s with
  | nil =>
    obtain ⟨i, hi⟩ := accepted_of_legal hlegal hp
    exact ⟨1, le_rfl, .inl ⟨_, run_one (step_completes ⟨hp, hi⟩ hl), completion_phase ..⟩⟩
  | cons e rest ih =>
    cases hs : step s with
    | fault f => exact absurd hs (noStepFaults s f hlegal)
    | refused r => exact ⟨1, by simp, .inr ⟨r, run_one_refused hs⟩⟩
    | next t =>
      cases htp : t.phase with
      | idle => exact ⟨1, by simp, .inl ⟨t, run_one hs, htp⟩⟩
      | busy =>
        obtain ⟨k, hk, hrun⟩ := ih (runningCommandStaysLegal s t hlegal hs) htp (by rw [step_inputs hs, hl]; rfl)
        exact ⟨k + 1, Nat.succ_le_succ hk, by rwa [run_succ hs]⟩

/-- Settles O54, by `busy_completes`. -/
theorem busyCommandsComplete : Obligations.BusyCommandsComplete := by
  intro s hlegal hp
  obtain ⟨k, hk, ⟨t, hrun, htp⟩ | ⟨r, hrun⟩⟩ := busy_completes hlegal hp
  · exact ⟨k, hk, by rw [hrun]; exact htp⟩
  · exact ⟨k, hk, by rw [hrun]; trivial⟩

/-- Settles O5: in Busy the engine's turn runs the latched command. -/
theorem stepRunsTheLatchedCommand : Obligations.StepRunsTheLatchedCommand := by
  intro s i hp hc hn
  rw [step_engine hn]
  exact engineTurn_running ((runningCommand_busy (by exact hp)).trans hc)

/-- Settles O11, by `step_cmdWrite_busy`. -/
theorem cmdWriteInBusyIsDropped : Obligations.CmdWriteInBusyIsDropped :=
  fun _ _ _ hc hp => step_cmdWrite_busy hc hp

/-- Settles O12: NOP's acceptance is `accept_nop`, a dropped word is O11's, and the example is two steps. -/
theorem nopOnlyCompletes : Obligations.NopOnlyCompletes := by
  refine ⟨fun s hp => ?_, fun s rest hc hp => step_cmdWrite_busy hc hp, fun w l h hw => ?_, ?_⟩
  · refine ⟨_, (exec_idle .nop s hp).trans (accept_nop (decode_encode .nop) s), rfl, ?_⟩
    simp [irq_eq]
  · obtain ⟨e, he⟩ := decode_of_opField_zero h hw
    exact check_of_illegal he l
  · have hctrl := step_writeReg (s := { State.reset with inputs := [.regWrite 0x00 4 1, .regWrite 0x08 4 0] })
      (r := .ctrl) rfl rfl
    have hnop := step_cmdWrite_idle (s := writeCtrl 1 { State.reset with inputs := [.regWrite 0x08 4 0] })
      (w := 0) ⟨rfl, rfl⟩ rfl
    rw [run_succ hctrl]
    exact ⟨_, run_one (hnop.trans (accept_nop (decode_encode .nop) _)), rfl, rfl⟩

end Sys2Proof.Machine

/-! # The acceptance check, the bus error and the interrupt

What the check of a word answers (60_exceptions.md R181, R183), what a bus error does to memory (R184), and what raises
and lowers `irq` (R186, R188). The laws come first: which words are illegal, the check as one ordered list of tests, and
its stride and range tests written out for each command. The obligations follow. -/

namespace Sys2Proof.Machine

/-! ## Illegal words -/

/-- The opcodes below 0x4 are the assigned ones (30_encoding.md R91). -/
theorem commandOf_assigned {op : Nibble} (h : op.toNat < 4) : ∃ i, commandOf op = some i :=
  Option.isSome_iff_exists.1 ((by decide : ∀ op : Nibble, op.toNat < 4 → (commandOf op).isSome = true) op h)

/-- A word is illegal for a reserved bit or a reserved opcode, and for nothing else (30_encoding.md R92). -/
theorem decode_illegal_iff (w : Word) :
    (∃ e, decode w = .error e) ↔ reservedField w ≠ 0 ∨ 4 ≤ (opField w).toNat := by
  refine ⟨fun ⟨e, he⟩ => ?_, ?_⟩
  · by_contra hlegal
    obtain ⟨hr, ho⟩ := not_or.1 hlegal
    obtain ⟨i, hi⟩ := commandOf_assigned (Nat.lt_of_not_le ho)
    simp [decode, not_not.1 hr, hi] at he
  · rintro (hr | ho)
    · exact ⟨.reservedBits, if_neg hr⟩
    · exact decode_error_of_reserved ho

/-! ## The check of a command -/

/-- The check of a command other than NOP: size, strides, footprints, in this order (60_exceptions.md R181). -/
theorem checkCommand_eq {i : Instr} (hn : i ≠ .nop) (l : Latched) : checkCommand i l =
    if l.W = 0 ∨ l.H = 0 then .badDim
    else if ∃ p ∈ strideReq i l, p.1 < p.2 then .badStride
    else if ∃ f ∈ footprints i l, f.inRange = false then .range
    else .none := by
  simp only [checkCommand, if_neg hn, List.any_eq_true, decide_eq_true_eq, Bool.not_eq_true']

/-- The last byte of a plane is above the last address of system memory (20_memory.md R69). -/
def planeOut (base stride : Word) (rows rowBytes : Nat) : Prop :=
  2 ^ 32 - 1 < base.toNat + (rows - 1) * stride.toNat + rowBytes - 1

theorem planeFootprint_inRange_eq_false_iff (base stride : Word) (rows rowBytes : Nat) :
    (planeFootprint base stride rows rowBytes).inRange = false ↔ planeOut base stride rows rowBytes := by
  rw [Footprint.inRange, decide_eq_false_iff_not]
  simp only [planeFootprint, planeOut, Config.addrLimit]
  omega

section CommandChecks
variable (l : Latched)

/-- The RGBA stride is below its minimum (60_exceptions.md R181). -/
def rgbaNarrow : Prop := l.planes.rgbaStride.toNat < 4 * l.W

/-- A source stride is below its minimum. -/
def srcNarrow : Prop := l.planes.srcYStride.toNat < l.W ∨ l.planes.srcUVStride.toNat < l.CW

/-- A destination stride is below its minimum. -/
def dstNarrow : Prop := l.planes.dstYStride.toNat < l.W ∨ l.planes.dstUVStride.toNat < l.CW

/-- The RGBA plane is out of range. -/
def rgbaOut : Prop := planeOut l.planes.rgbaBase l.planes.rgbaStride l.H (4 * l.W)

/-- A source plane is out of range. -/
def srcOut : Prop :=
  planeOut l.planes.srcYBase l.planes.srcYStride l.H l.W ∨
    planeOut l.planes.srcUBase l.planes.srcUVStride l.CH l.CW ∨
    planeOut l.planes.srcVBase l.planes.srcUVStride l.CH l.CW

/-- A destination plane is out of range. -/
def dstOut : Prop :=
  planeOut l.planes.dstYBase l.planes.dstYStride l.H l.W ∨
    planeOut l.planes.dstUBase l.planes.dstUVStride l.CH l.CW ∨
    planeOut l.planes.dstVBase l.planes.dstUVStride l.CH l.CW

/-- The stride test of each command, by its word (60_exceptions.md R181). -/
theorem strideReq_narrow_iff (i : Instr) : (∃ p ∈ strideReq i l, p.1 < p.2) ↔
    encode i = 0x1 ∧ (rgbaNarrow l ∨ dstNarrow l) ∨ encode i = 0x2 ∧ (srcNarrow l ∨ rgbaNarrow l) ∨
      encode i = 0x3 ∧ (srcNarrow l ∨ dstNarrow l) := by
  cases i <;> simp [strideReq, encode, rgbaNarrow, srcNarrow, dstNarrow, or_assoc]

/-- The range test of each command, by its word (60_exceptions.md R181). -/
theorem footprints_out_iff (i : Instr) : (∃ f ∈ footprints i l, f.inRange = false) ↔
    encode i = 0x1 ∧ (rgbaOut l ∨ dstOut l) ∨ encode i = 0x2 ∧ (srcOut l ∨ rgbaOut l) ∨
      encode i = 0x3 ∧ (srcOut l ∨ dstOut l) := by
  cases i <;> simp [footprints, readFootprints, writeFootprints, srcFootprints, dstFootprints, rgbaFootprint,
    planeFootprint_inRange_eq_false_iff, encode, rgbaOut, srcOut, dstOut, or_assoc]

end CommandChecks

/-! ## The obligations -/

/-- Settles O7: a word is illegal or its command's; then the check is the ordered list of tests of `checkCommand_eq`. -/
theorem checkReturnsTheFirstFailingCode : Obligations.CheckReturnsTheFirstFailingCode := by
  intro w l W H CW CH p fwd inv rep last rgbaOut srcOut dstOut rgbaNarrow srcNarrow dstNarrow badCmd badDim badStride
    outOfRange
  have hillegal : (∃ e, decode w = .error e) ↔ badCmd := decode_illegal_iff w
  have hnop : w = 0x0 → check w l = .none := fun hw => by rw [hw]; exact check_of_decode (decode_encode .nop) l
  cases hd : decode w with
  | error e =>
    have hbad : badCmd := hillegal.1 ⟨e, hd⟩
    exact ⟨fun _ => check_of_illegal hd l, hnop, (absurd hbad ·), (absurd hbad ·), (absurd hbad ·), (absurd hbad ·)⟩
  | ok i =>
    have hlegal : ¬badCmd := fun hb => by simpa [hd] using hillegal.2 hb
    refine ⟨(absurd · hlegal), hnop, ?_⟩
    obtain rfl := eq_encode_of_decode hd
    have hdim : (l.W = 0 ∨ l.H = 0) ↔ badDim := Iff.rfl
    have hstride : (∃ p ∈ strideReq i l, p.1 < p.2) ↔ badStride := strideReq_narrow_iff l i
    have hrange : (∃ f ∈ footprints i l, f.inRange = false) ↔ outOfRange := footprints_out_iff l i
    have hcheck (hw : encode i ≠ 0x0) := (check_of_decode hd l).trans
      (checkCommand_eq (fun hi => hw (congrArg encode hi)) l)
    simp only [hdim, hstride, hrange] at hcheck
    refine ⟨fun _ hw h1 => ?_, fun _ hw h1 h2 => ?_, fun _ hw h1 h2 h3 => ?_, fun _ hw h1 h2 h3 => ?_⟩
    · rw [hcheck hw, if_pos h1]
    · rw [hcheck hw, if_neg h1, if_pos h2]
    · rw [hcheck hw, if_neg h1, if_neg h2, if_pos h3]
    · rw [hcheck hw, if_neg h1, if_neg h2, if_neg h3]

/-- Settles O20, by `exec_busError`: the draw covers the destination bytes at which writes are accepted. -/
theorem busErrorIsImprecise : Obligations.BusErrorIsImprecise := by
  intro i s hrun hrefused
  refine ⟨_, exec_busError hrun ((busAccepts_eq_false_iff ..).2 hrefused), rfl, rfl, rfl, rfl, rfl,
    fun a ha hok => read_anyCells _ _ _ a (List.mem_filter.2 ⟨ha, hok⟩),
    fun a hfree => read_anyCells_outside _ _ _ a fun hdrawn => ?_⟩
  obtain ⟨ha, hok⟩ := List.mem_filter.1 hdrawn
  rcases hfree with hout | hno
  · exact hout ha
  · simp [hno] at hok

/-- Settles O32: `irq` is `irq_eq`, a started command shows no outcome, and a reset clears IRQ_EN. -/
theorem irqFollowsTheOutcome : Obligations.IrqFollowsTheOutcome := by
  refine ⟨fun s => ?_, fun s houtcome => ?_, fun s => ?_, fun i s t h hbusy hidle => ?_, fun s t h => ?_⟩
  · simp [irq_eq]
  · simpa [irq_eq] using houtcome
  · simp [irq_eq]
  · rcases exec_idle_ends hidle h with ⟨⟨hended, -⟩, -⟩ | ⟨-, -, hdone, herr⟩
    · rw [hended] at hbusy; exact absurd hbusy (by decide)
    · simp [irq_eq, hdone, herr]
  · rcases assertReset_cases h with ⟨-, rfl⟩ | ⟨i, -, -, rfl⟩ <;> rfl

end Sys2Proof.Machine

/-! # Reset

What asserting `rst` answers, in Idle and in Busy (70_reset_and_hazards.md R210 to R212), that the block keeps its reset
state while `rst` stays asserted, and what a host finds right after reset (R213). The laws come first; the obligations
follow. -/

namespace Sys2Proof.Machine

/-! ## A block at its reset values -/

/-- A block at its reset values runs no command, so no host write taints it (70_reset_and_hazards.md R215). -/
theorem taintedBy_atReset {s : State} (h : blockAtReset s) (a : Nat) : taintedBy a s = false := by
  obtain ⟨-, -, -, hidle, htaint⟩ := h
  simp [← Bool.not_eq_true, taintedBy_iff, htaint, runningCommand_idle hidle]

/-- With `rst` released there is nothing to hold. -/
theorem resetHeld_of_released {s : State} (h : s.rst = false) : resetHeld s :=
  fun hr => absurd (h.symm.trans hr) (by decide)

/-- A host memory write keeps a held reset: the taint it leaves is `taintedBy`. -/
theorem resetHeld_of_memWrite {s t : State} {a : Nat} (h : resetHeld s)
    (ht : t = { s with inputs := t.inputs, taint := taintedBy a s, mem := t.mem, draws := t.draws }) :
    resetHeld t := by
  rw [ht]
  intro hr
  obtain ⟨hirq, hstatus, hregs, hidle, -⟩ := h hr
  exact ⟨hirq, hstatus, hregs, hidle, taintedBy_atReset (h hr) a⟩

/-- `blockReset` puts the block at its reset values, whatever it was doing. -/
theorem blockAtReset_asserted (s : State) : blockAtReset { blockReset s with rst := true } :=
  ⟨rfl, rfl, rfl, rfl, rfl⟩

/-! ## Asserting `rst` -/

/-- In Idle asserting `rst` resets the block (70_reset_and_hazards.md R210). -/
theorem assertReset_idle {s : State} (h : s.phase = .idle) :
    assertReset s = .next { blockReset s with rst := true } := by
  simp only [assertReset, runningCommand_idle h]

/-- In Busy asserting `rst` first abandons the accepted command, whose destination is in range
(70_reset_and_hazards.md R211). -/
theorem assertReset_accepted {i : Instr} {s : State} (h : runningAs i s) :
    assertReset s =
      .next { blockReset (abandon (footprintAddresses (writeFootprints i s.latch)) s) with rst := true } := by
  have ⟨_, hn, _, hk, _⟩ := h
  obtain ⟨-, -, hin⟩ := check_none hn hk
  simp only [assertReset, runningCommand_accepted h, write_inRange hin, Bool.false_eq_true, if_false]

/-! ## Right after reset -/

/-- Every register reads 0 right after reset (70_reset_and_hazards.md R213). -/
theorem readReg_reset (r : Reg) : readReg r State.reset = 0 := by cases r <;> rfl

/-- A command other than NOP on a picture without width or height is BAD_DIM, the first test of its check
(60_exceptions.md R181). -/
theorem checkCommand_emptyPicture {i : Instr} {l : Latched} (hn : i ≠ .nop) (h : l.W = 0 ∨ l.H = 0) :
    checkCommand i l = .badDim := by
  rw [checkCommand_eq hn, if_pos h]

/-- Right after reset a command other than NOP is rejected with BAD_DIM (70_reset_and_hazards.md R213). -/
theorem exec_reset {i : Instr} (hn : i ≠ .nop) :
    exec i State.reset = .next (raiseError .badDim (beginAccept (encode i) State.reset)) := by
  have hk : checkCommand i (latchOperands (encode i) State.reset.regs) = .badDim :=
    checkCommand_emptyPicture hn (.inl rfl)
  rw [exec_idle i State.reset rfl, accept_rejected (decode_encode i) (by rw [hk]; decide), hk]

/-! ## The obligations about reset -/

/-- Settles O50: with `rst` asserted no host write reaches a register and no command runs, so a step can only repeat
the reset, release `rst`, or leave the block as it is. -/
theorem resetIsHeld : Obligations.ResetIsHeld := by
  intro s t hheld h
  cases step_next h with
  | engineBusy i hn hbusy =>
    intro hr
    obtain ⟨-, -, -, hidle, -⟩ := hheld (by simpa using hr)
    exact absurd (hbusy.symm.trans hidle) (by decide)
  | ctrlWrite v rest hi hr => exact resetHeld_of_released hr
  | statusWrite v rest hi hr => exact resetHeld_of_released hr
  | configWrite r v rest hi hr => exact resetHeld_of_released (by simpa using hr)
  | cmdDropped w rest hc => exact resetHeld_of_released hc.1
  | cmdIllegal w rest hc => exact resetHeld_of_released hc.1
  | cmdRejected w rest hc => exact resetHeld_of_released hc.1
  | cmdNop w rest hc => exact resetHeld_of_released hc.1
  | cmdStarted w rest hc => exact resetHeld_of_released hc.1
  | memWriteValue => exact resetHeld_of_memWrite hheld rfl
  | memWriteAny => exact resetHeld_of_memWrite hheld rfl
  | resetIdle => exact fun _ => blockAtReset_asserted _
  | resetBusy => exact fun _ => blockAtReset_asserted _
  | released => exact resetHeld_of_released rfl
  | _ => exact hheld

/-- Settles O46: `assertReset_idle` writes no memory, and `assertReset_accepted` draws the destination alone. -/
theorem resetAbandonsTheCommand : Obligations.ResetAbandonsTheCommand := by
  intro s rest hi hlegal
  cases hp : s.phase with
  | idle =>
    refine ⟨_, (step_input hi).trans (assertReset_idle (by exact hp)), rfl, blockAtReset_asserted _, rfl, rfl, rfl,
      fun _ => rfl, fun i hc => ?_⟩
    simp [runningCommand_idle hp] at hc
  | busy =>
    obtain ⟨j, hj⟩ := accepted_of_legal hlegal hp
    refine ⟨_, (step_input hi).trans (assertReset_accepted (by exact ⟨hp, hj⟩)), rfl, blockAtReset_asserted _,
      rfl, rfl, rfl, nofun, fun i hc => ?_⟩
    obtain rfl : j = i := by simpa [runningCommand_accepted ⟨hp, hj⟩] using hc
    exact ⟨read_anyCells s.mem s.draws _, read_anyCells_outside s.mem s.draws _⟩

/-- Settles O45: the fields by definition, and a read of an offset by `readReg_reset`. -/
theorem resetStateIsTheSpecs : Obligations.ResetStateIsTheSpecs := by
  refine ⟨rfl, rfl, rfl, rfl, rfl, rfl, fun o => ?_⟩
  cases ho : regAt o with
  | none => simp only [readWord, ho]
  | some r => rw [regAt_some ho, readWord_regOffset, readReg_reset]

/-- Settles O47, by `exec_reset`. -/
theorem commandsAfterResetAreBadDim : Obligations.CommandsAfterResetAreBadDim :=
  fun _ hn => ⟨_, exec_reset hn, rfl, rfl, rfl, rfl⟩

end Sys2Proof.Machine
